-- ==== Sys2Proof/Word.lean ====
section
/-! DEFINITION. The words and bytes of the machine (00_scope.md R8). -/

namespace Sys2Proof

/-- "A word is a 32-bit unsigned integer with bits numbered 31 (most significant) down to 0" (R8).
`BitVec`'s own `+ - ^^^ &&& <<< >>>` are R9's operations: modulo 2^32, bitwise, truncating left shift,
zero-filling right shift. -/
abbrev Word := BitVec 32

/-- "A byte is an 8-bit unsigned integer" (R8). -/
abbrev Byte := BitVec 8

end Sys2Proof
end

