-- ==== Sys2Proof/Config.lean ====
section
/-! DEFINITION. What an implementation fixes (00_scope.md R7) and the free values the spec leaves open
(10_state.md R31). -/

namespace Sys2Proof

/-- The OPEN parameters of R7 that a rule of the device reads. They are carried in `Machine.State`, where no step
changes them, so a statement about every state is a statement about every configuration (DESIGN CHOICE, safe,
notes/assumptions/2.md). `LATENCY`, the third OPEN parameter, is the place of the engine's turn in `State.inbox`
(notes/assumptions/5.md). -/
structure Config where
  /-- `NMAX`, the capacity of the word buffer in words. -/
  nmax : Nat
  /-- `BASE`, the address of the device's 4 KiB window on the host bus. -/
  base : Nat
deriving DecidableEq, Repr

namespace Config

/-- The values R7 allows: `2 <= NMAX <= 256`, and `BASE` "a multiple of 0x1000". -/
abbrev wf (c : Config) : Prop := 2 ≤ c.nmax ∧ c.nmax ≤ 256 ∧ c.base % 0x1000 = 0

/-- The reference configuration, `NMAX = 256` (R7). `BASE = 0` is a DESIGN CHOICE (unsafe: R7 leaves it open;
notes/assumptions/2.md). -/
def reference : Config := ⟨256, 0⟩

/-- A byte of BBUF that nothing has written since reset number `draw`: "each byte is an arbitrary value in 0..255,
not necessarily equal across resets or across bytes" (R31). No body: nothing is known of its value
(notes/assumptions/1.md). -/
opaque freeByte (draw i : Nat) : Byte

/-- A word of WBUF that nothing has written since reset number `draw`: "each word is an arbitrary 32-bit value"
(R31). No body (notes/assumptions/1.md). -/
opaque freeWord (draw i : Nat) : Word

end Config

end Sys2Proof
end

