-- ==== Sys2Proof/Syntax.lean ====
section
/-! DEFINITION. The commands of the device, one constructor for each row of spec/opcode_table.json. -/

namespace Sys2Proof

/-- A command (30_encoding.md R58). Commands have no operand fields: "Operands are implicit" (R60). The table lists its
reserved words in eleven rows of one word each and one row for every word whose field RSV is not 0 (R57, R61); each row
has its constructor (DESIGN CHOICE, safe, notes/assumptions/12.md). -/
inductive Instr where
  /-- `0x00000001`: byte buffer to word buffer (R69). -/
  | pack
  /-- `0x00000002`: word buffer to byte buffer (R70). -/
  | unpack
  /-- `0x00000003`: byte buffer to key registers (R71). -/
  | keyload
  /-- `0x00000004`: encrypt the block in place (R83). -/
  | encrypt
  /-- `0x00000005`: decrypt the block in place (R84). -/
  | decrypt
  /-- `0x00000000`: reserved (R61). -/
  | reservedOp0
  /-- `0x00000006`: reserved (R61). -/
  | reservedOp6
  /-- `0x00000007`: reserved (R61). -/
  | reservedOp7
  /-- `0x00000008`: reserved (R61). -/
  | reservedOp8
  /-- `0x00000009`: reserved (R61). -/
  | reservedOp9
  /-- `0x0000000A`: reserved (R61). -/
  | reservedOpA
  /-- `0x0000000B`: reserved (R61). -/
  | reservedOpB
  /-- `0x0000000C`: reserved (R61). -/
  | reservedOpC
  /-- `0x0000000D`: reserved (R61). -/
  | reservedOpD
  /-- `0x0000000E`: reserved (R61). -/
  | reservedOpE
  /-- `0x0000000F`: reserved (R61). -/
  | reservedOpF
  /-- A word whose field RSV (bits 31:4) is `rsv` and whose field OP (bits 3:0) is `op` (R57): reserved, whatever OP,
  because RSV is not 0 (R58, R61). -/
  | reservedRsv (op : BitVec 4) (rsv : BitVec 28)
deriving DecidableEq, Repr

end Sys2Proof
end

