-- ==== Sys2Proof/WellFormed.lean ====
section
/-! DEFINITION. Which terms of `Instr` stand for a command word. -/

namespace Sys2Proof

/-- The one check: the row of the reserved field holds the words "with RSV != 0" only (30_encoding.md R58). -/
def Instr.wellFormed (i : Instr) : Bool :=
  match i with
  | .pack => true
  | .unpack => true
  | .keyload => true
  | .encrypt => true
  | .decrypt => true
  | .reservedOp0 => true
  | .reservedOp6 => true
  | .reservedOp7 => true
  | .reservedOp8 => true
  | .reservedOp9 => true
  | .reservedOpA => true
  | .reservedOpB => true
  | .reservedOpC => true
  | .reservedOpD => true
  | .reservedOpE => true
  | .reservedOpF => true
  | .reservedRsv _ rsv => rsv != 0#28

end Sys2Proof
end

