-- ==== Sys2Proof/Decode.lean ====
section
/-! DEFINITION. Decoding a command word (30_encoding.md R57 to R59), the encoder, and the opcode map as a table. -/

namespace Sys2Proof

/-- The field OP, bits 3:0 (R57). -/
def opField (c : Word) : BitVec 4 := c.extractLsb' 0 4

/-- The field RSV, bits 31:4 (R57). -/
def rsvField (c : Word) : BitVec 28 := c.extractLsb' 4 28

/-- The command of the words with RSV = 0, by their field OP (R58, R59). -/
def decodeOp (op : BitVec 4) : Instr :=
  match op.toNat with
  | 0x0 => .reservedOp0
  | 0x1 => .pack
  | 0x2 => .unpack
  | 0x3 => .keyload
  | 0x4 => .encrypt
  | 0x5 => .decrypt
  | 0x6 => .reservedOp6
  | 0x7 => .reservedOp7
  | 0x8 => .reservedOp8
  | 0x9 => .reservedOp9
  | 0xA => .reservedOpA
  | 0xB => .reservedOpB
  | 0xC => .reservedOpC
  | 0xD => .reservedOpD
  | 0xE => .reservedOpE
  | _ => .reservedOpF

/-- R59: "Decode is total on all 2^32 words". The words R59 maps to ILLEGAL are the `reserved...` constructors. -/
def decode (c : Word) : Instr :=
  if rsvField c = 0#28 then decodeOp (opField c) else .reservedRsv (opField c) (rsvField c)

/-- The word of a command (R58): the inverse of `decode` on well-formed commands. -/
def encode (i : Instr) : Word :=
  match i with
  | .pack => 0x00000001
  | .unpack => 0x00000002
  | .keyload => 0x00000003
  | .encrypt => 0x00000004
  | .decrypt => 0x00000005
  | .reservedOp0 => 0x00000000
  | .reservedOp6 => 0x00000006
  | .reservedOp7 => 0x00000007
  | .reservedOp8 => 0x00000008
  | .reservedOp9 => 0x00000009
  | .reservedOpA => 0x0000000A
  | .reservedOpB => 0x0000000B
  | .reservedOpC => 0x0000000C
  | .reservedOpD => 0x0000000D
  | .reservedOpE => 0x0000000E
  | .reservedOpF => 0x0000000F
  | .reservedRsv op rsv => rsv ++ op

/-- A row of the opcode map (R58): the words `c` with `c &&& mask = pattern` are `instr`. -/
structure OpcodeRow where
  mask : Word
  pattern : Word
  instr : Instr
deriving DecidableEq, Repr

/-- The rows of R58 that compare "the full 32-bit word", with the table's mask and match. -/
def opcodeRows : List OpcodeRow :=
  [ ⟨0xFFFFFFFF, 0x00000001, .pack⟩,
    ⟨0xFFFFFFFF, 0x00000002, .unpack⟩,
    ⟨0xFFFFFFFF, 0x00000003, .keyload⟩,
    ⟨0xFFFFFFFF, 0x00000004, .encrypt⟩,
    ⟨0xFFFFFFFF, 0x00000005, .decrypt⟩,
    ⟨0xFFFFFFFF, 0x00000000, .reservedOp0⟩,
    ⟨0xFFFFFFFF, 0x00000006, .reservedOp6⟩,
    ⟨0xFFFFFFFF, 0x00000007, .reservedOp7⟩,
    ⟨0xFFFFFFFF, 0x00000008, .reservedOp8⟩,
    ⟨0xFFFFFFFF, 0x00000009, .reservedOp9⟩,
    ⟨0xFFFFFFFF, 0x0000000A, .reservedOpA⟩,
    ⟨0xFFFFFFFF, 0x0000000B, .reservedOpB⟩,
    ⟨0xFFFFFFFF, 0x0000000C, .reservedOpC⟩,
    ⟨0xFFFFFFFF, 0x0000000D, .reservedOpD⟩,
    ⟨0xFFFFFFFF, 0x0000000E, .reservedOpE⟩,
    ⟨0xFFFFFFFF, 0x0000000F, .reservedOpF⟩ ]

/-- The same decoding, read off the table: the first row that matches, and else the table's last row, which "applies
only when no row above matches the full word". -/
def decodeByTable (c : Word) : Instr :=
  match opcodeRows.find? (fun r => c &&& r.mask == r.pattern) with
  | some r => r.instr
  | none => .reservedRsv (opField c) (rsvField c)

/-- Why bits are no command word. -/
inductive DecodeError where
  /-- More bits than a command has: "There is no other length" (R57). -/
  | wrongLength (nbits : Nat)
deriving DecidableEq, Repr

/-- The command in the low `nbits` bits of `w`; the bits of the word above `nbits` are 0. A command is "32 bits long"
(R57), so more bits are rejected by name (DESIGN CHOICE, safe, notes/assumptions/13.md). -/
def decodeBits (nbits w : Nat) : Except DecodeError Instr :=
  if nbits ≤ 32 then .ok (decode ((BitVec.ofNat nbits w).setWidth 32)) else .error (.wrongLength nbits)

/-- What the decoder reads from an instruction of the opcode table whose bits are `w`. -/
def decodeTableWord (nbits w : Nat) : Option Instr := (decodeBits nbits w).toOption

end Sys2Proof
end

