-- ==== Sys2Proof/Machine/State.lean ====
section
/-! DEFINITION. The state of the device as plain data (10_state.md R13), what stands at its host port, and reset. -/

namespace Sys2Proof.Machine

/-- `ENG`: "whether a command is in progress" (R13, R14). -/
inductive Engine where
  | idle
  | busy
deriving DecidableEq, Repr

/-- `KEY[0..3]`: "The key always has exactly four words" (R25). -/
structure Key where
  k0 : Word
  k1 : Word
  k2 : Word
  k3 : Word
deriving DecidableEq, Repr

/-- The size of a host transaction, the port's field `size` (20_memory.md R37). -/
inductive Size where
  /-- 1 byte. -/
  | one
  /-- 2 bytes: "exists on the port but is always a bus error" (R38). -/
  | two
  /-- 4 bytes. -/
  | four
deriving DecidableEq, Repr

/-- A host transaction (R38) at an address of the host bus. The device sees the address's offset from BASE. -/
inductive Transaction where
  /-- `MemRead(off, n)`. -/
  | read (addr : Nat) (size : Size)
  /-- `MemWrite(off, n, v)`. -/
  | write (addr : Nat) (size : Size) (data : Word)
deriving DecidableEq, Repr

/-- What the outside world does to the device, one at a time (R52; 70_reset_and_hazards.md R103, R116). -/
inductive Event where
  /-- The host performs a transaction. -/
  | host (t : Transaction)
  /-- The engine's turn: it takes the completion step if a command is in progress (60_exceptions.md R89). -/
  | engine
  /-- `rst_n` goes low. -/
  | assertReset
  /-- `rst_n` goes high. -/
  | releaseReset
deriving DecidableEq, Repr

/-- The port's answer to a transaction (R38, 60_exceptions.md R90). `rdata` is `none` for a write. -/
inductive Response where
  /-- `OKAY`, with the read data of a read. -/
  | okay (rdata : Option Word)
  /-- `BUSERR`, `err = 1`; a read "returns read data 0". -/
  | busError (rdata : Option Word)
deriving DecidableEq, Repr

/-- Why a command fails (60_exceptions.md R91); its code is `CmdError.code`. -/
inductive CmdError where
  /-- 1: a reserved word. -/
  | illegalCmd
  /-- 2: a length beyond the buffers. -/
  | lengthRange
  /-- 3: a block of fewer than 2 words. -/
  | shortBlock
deriving DecidableEq, Repr

/-- The state. The first group is "the complete architectural state" of R13, `cfg` the parameters of the configuration
(R7), and the last group the model's own: they hold the device's inputs and outputs and number its resets.
`STATUS.BUSY` and `irq` are functions of it (R13). -/
structure State where
  /-- NMAX and BASE, constants (notes/assumptions/2.md). -/
  cfg : Config
  /-- `ENG` (R14). -/
  eng : Engine
  /-- `CMDL`, the command latch (R28). -/
  cmdl : Word
  /-- `CTRL.IE` (R19). -/
  ie : Bool
  /-- `STATUS.DONE` (R20). -/
  done : Bool
  /-- `STATUS.ERR` (R20). -/
  err : Bool
  /-- `STATUS.ERRCODE` (R20). -/
  errcode : BitVec 4
  /-- `NWORDS` (R23). -/
  nwords : BitVec 16
  /-- `NBYTES` (R24). -/
  nbytes : BitVec 16
  /-- `KEY[0..3]` (R25). -/
  key : Key
  /-- `BBUF` (R26): the bytes written since reset, by index, rising. A byte not listed reads as a free value. -/
  bbuf : List Host.Cell
  /-- `WBUF` (R27): the words written since reset, by index, rising. A word not listed reads as a free value. -/
  wbuf : List (Nat × Word)
  /-- The model's own: which reset the buffers' draws belong to (R104, notes/assumptions/1.md). -/
  draw : Nat
  /-- The model's own: `rst_n` is held low (R103, notes/assumptions/9.md). -/
  inReset : Bool
  /-- The model's own: what the outside world does next, the next event first (notes/assumptions/5.md). -/
  inbox : List Event
  /-- The model's own: the port's answer to the transaction of the step just taken (notes/assumptions/7.md). -/
  resp : Option Response
deriving DecidableEq, Repr

/-- No rule of the spec stops the device. A bus error is the answer to one transaction, after which the device goes
on (60_exceptions.md R90), and a command error is a report in STATUS (R89); both are next states. So there is no
constructor, nobody raises one, and that is neither safe nor unsafe (notes/assumptions/4.md). -/
inductive Fault where
deriving DecidableEq, Repr

/-- A command the model gives no meaning. -/
inductive Refusal where
  /-- Raised by an arm of `exec` alone, for a command with no meaning yet; no arm raises it. Safe: the model stops. -/
  | notModelled (mnemonic : String)
deriving DecidableEq, Repr

namespace State

/-- The state when reset is released (10_state.md R31, 70_reset_and_hazards.md R103), in any configuration and with any
draw for the buffers. `cmdl := 0` is a DESIGN CHOICE (R31: "unspecified and unobservable"; notes/assumptions/3.md). -/
def resetWith (cfg : Config) (draw : Nat) : State where
  cfg := cfg
  eng := .idle
  cmdl := 0
  ie := false
  done := false
  err := false
  errcode := 0
  nwords := 0
  nbytes := 0
  key := ⟨0, 0, 0, 0⟩
  bbuf := []
  wbuf := []
  draw := draw
  inReset := false
  inbox := []
  resp := none

/-- The reset state of the reference configuration (R7), with nothing yet at the port. Draw 0 is a DESIGN CHOICE
(notes/assumptions/1.md): nothing is known of the free values it selects. -/
def reset : State := resetWith Config.reference 0

end State

end Sys2Proof.Machine
end

