-- ==== Sys2Proof/Machine/Ops.lean ====
section
/-! DEFINITION. The named operations over the buffers and the registers: the buffers' lists, issue, completion, a failed
command's report, reset. -/

namespace Sys2Proof.Machine

/-! The buffers' lists. One element a cell, a byte in BBUF and a word in WBUF: no wider or narrower access to either
exists (20_memory.md R41, R42, R49). -/

namespace Memory

variable {α : Type}

/-- The canonical form: indices strictly rising. An element not listed reads as `none`, which no cell holds, so two
lists in this form that read alike are equal (notes/assumptions/18.md). -/
abbrev wf (m : List (Nat × α)) : Prop := (m.map Prod.fst).Pairwise (· < ·)

/-- Every listed index lies below `bound`, the buffer's capacity. -/
abbrev below (bound : Nat) (m : List (Nat × α)) : Prop := ∀ c ∈ m, c.1 < bound

/-- The element at `i`, if something has written it. -/
def read (m : List (Nat × α)) (i : Nat) : Option α :=
  match m with
  | [] => none
  | (j, w) :: rest => if j = i then some w else read rest i

/-- Writes one element, keeping the indices rising. -/
def write (m : List (Nat × α)) (i : Nat) (v : α) : List (Nat × α) :=
  match m with
  | [] => [(i, v)]
  | (j, w) :: rest =>
    if i < j then (i, v) :: (j, w) :: rest
    else if i = j then (i, v) :: rest
    else (j, w) :: write rest i v

/-- Writes `vs` at `i`, `i + 1`, ... in index order. -/
def writeFrom (m : List (Nat × α)) (i : Nat) (vs : List α) : List (Nat × α) :=
  match vs with
  | [] => m
  | v :: rest => writeFrom (write m i v) (i + 1) rest

end Memory

namespace Key

/-- `KEY[i]` (10_state.md R25). -/
def get (k : Key) (i : BitVec 2) : Word :=
  match i.toFin with
  | 0 => k.k0
  | 1 => k.k1
  | 2 => k.k2
  | 3 => k.k3

/-- `KEY[i] <- v` (R25). -/
def set (k : Key) (i : BitVec 2) (v : Word) : Key :=
  match i.toFin with
  | 0 => { k with k0 := v }
  | 1 => { k with k1 := v }
  | 2 => { k with k2 := v }
  | 3 => { k with k3 := v }

end Key

namespace State

/-- `BBUF[i]` (R26). A byte nothing has written since reset is the draw of R31. -/
def bbufAt (s : State) (i : Nat) : Byte := (Memory.read s.bbuf i).getD (Config.freeByte s.draw i)

/-- `WBUF[i]` (R27). A word nothing has written since reset is the draw of R31. -/
def wbufAt (s : State) (i : Nat) : Word := (Memory.read s.wbuf i).getD (Config.freeWord s.draw i)

/-- `BBUF[i], BBUF[i+1], ... <- bs`. -/
def storeBytes (s : State) (i : Nat) (bs : List Byte) : State := { s with bbuf := Memory.writeFrom s.bbuf i bs }

/-- `WBUF[i], WBUF[i+1], ... <- ws`. -/
def storeWords (s : State) (i : Nat) (ws : List Word) : State := { s with wbuf := Memory.writeFrom s.wbuf i ws }

/-- `NWORDS <- v` (R23). -/
def setNwords (s : State) (v : BitVec 16) : State := { s with nwords := v }

/-- `NBYTES <- v` (R24). -/
def setNbytes (s : State) (v : BitVec 16) : State := { s with nbytes := v }

/-- `KEY[0..3] <- k` (R25). -/
def setKey (s : State) (k : Key) : State := { s with key := k }

/-- `CTRL.IE <- b` (R19). -/
def setIe (s : State) (b : Bool) : State := { s with ie := b }

/-- `STATUS.DONE <- 0` (R20). -/
def clearDone (s : State) : State := { s with done := false }

/-- `STATUS.ERR <- 0; STATUS.ERRCODE <- 0`: "clearing ERR also clears ERRCODE" (R20). -/
def clearErr (s : State) : State := { s with err := false, errcode := 0 }

/-- Issue (60_exceptions.md R88): the command word is latched, the engine starts, the last report is cleared. "Nothing
else changes at issue". -/
def issue (s : State) (v : Word) : State :=
  { s with cmdl := v, eng := .busy, done := false, err := false, errcode := 0 }

/-- The port's answer to the step's transaction. -/
def respond (s : State) (r : Response) : State := { s with resp := some r }

/-- The next event is taken from the inbox, and no answer stands yet. -/
def takeEvent (s : State) : State := { s with inbox := s.inbox.tail, resp := none }

/-- `rst_n` goes low: the whole state is replaced by the reset state, "with fresh draws for the buffers"
(70_reset_and_hazards.md R104). What the outside world does next is not the device's, and stays. -/
def holdReset (s : State) : State := { resetWith s.cfg (s.draw + 1) with inReset := true, inbox := s.inbox }

/-- `rst_n` goes high (R103). -/
def releaseReset (s : State) : State := { s with inReset := false }

end State

/-- The codes of R91, "written to STATUS.ERRCODE". -/
def CmdError.code (e : CmdError) : BitVec 4 :=
  match e with
  | .illegalCmd => 1
  | .lengthRange => 2
  | .shortBlock => 3

/-- `raise CmdError(code)`: the report of a failed command (R89). There is no trap entry and nothing to return from
(R94); this report is the nearest thing. -/
def State.raise (s : State) (e : CmdError) : State := { s with err := true, errcode := e.code }

/-- The end of every completion step: `ENG <- IDLE`, `STATUS.DONE <- 1` (R89). -/
def State.finish (s : State) : State := { s with eng := .idle, done := true }

/-- The completion step (R89): the effect when no check failed, else the report and "nothing else changes". -/
def complete (failed : Option CmdError) (effect : State → State) (s : State) : State :=
  match failed with
  | none => (effect s).finish
  | some e => (s.raise e).finish

end Sys2Proof.Machine
end

