-- ==== Sys2Proof/Machine/Operands.lean ====
section
/-! DEFINITION. The operands. A command has no operand fields; its operands are these registers and buffers, "all
sampled at completion" (30_encoding.md R60). The host's operands are the fields of a written word (10_state.md R16). -/

namespace Sys2Proof.Machine

/-- `ceil_div(a, b) = floor((a + b - 1) / b)` (00_scope.md R10). -/
def ceilDiv (a b : Nat) : Nat := (a + b - 1) / b

/-- `zext_32(b)`: "the byte b as a word with bits 31:8 zero" (R11). -/
def zext32 (b : Byte) : Word := b.setWidth 32

namespace State

/-- `L`, the byte length of PACK and KEYLOAD: the value of NBYTES (R24, R58). -/
def byteLength (s : State) : Nat := s.nbytes.toNat

/-- `n`, the block count of UNPACK, ENCRYPT and DECRYPT: the value of NWORDS (R23, R58). -/
def blockCount (s : State) : Nat := s.nwords.toNat

/-- `BBUF[0..L-1]`. -/
def bytes (s : State) (L : Nat) : List Byte := (List.range L).map s.bbufAt

/-- `WBUF[0..n-1]`. -/
def block (s : State) (n : Nat) : List Word := (List.range n).map s.wbufAt

/-- The capacity of BBUF, `4 * NMAX` bytes (R7). -/
def bbufSize (s : State) : Nat := 4 * s.cfg.nmax

end State

/-- "A field wider than its register field takes the low bits of the written word (`R <- wdata[w-1:0]`)" (R16): the
16-bit length registers. -/
def lengthField (v : Word) : BitVec 16 := v.setWidth 16

/-- The byte of a 1-byte write: "only `v[7:0]` is used" (20_memory.md R38). -/
def byteLane (v : Word) : Byte := v.setWidth 8

/-- The written bit of CTRL.IE, bit 0 (R19). -/
def ieField (v : Word) : Bool := v.getLsbD 0

end Sys2Proof.Machine
end

