-- ==== Sys2Proof/Machine/Flags.lean ====
section
/-! DEFINITION. The status bits: how STATUS reads, what a write of it clears, the interrupt output, and the check that
decides a command's error code (10_state.md R20; 60_exceptions.md R91, R92, R95). -/

namespace Sys2Proof.Machine

namespace State

/-- `STATUS.BUSY`: "1 exactly when `ENG = BUSY`" (R20). -/
def busy (s : State) : Bool := s.eng == .busy

/-- "The read value is `zext_32(ERRCODE) << 4 | ERR << 2 | DONE << 1 | BUSY` assembled as those bits" (R20). -/
def statusWord (s : State) : Word :=
  (s.errcode.setWidth 32 <<< 4) ||| ((BitVec.ofBool s.err).setWidth 32 <<< 2) |||
    ((BitVec.ofBool s.done).setWidth 32 <<< 1) ||| (BitVec.ofBool s.busy).setWidth 32

/-- A write of `v` to STATUS: bit 1 clears DONE, bit 2 clears ERR and ERRCODE, the other bits are ignored (R20). -/
def writeStatus (s : State) (v : Word) : State :=
  let s := if v.getLsbD 1 then s.clearDone else s
  if v.getLsbD 2 then s.clearErr else s

/-- The interrupt output: `irq = CTRL.IE & STATUS.DONE` (R95). -/
def irq (s : State) : Bool := s.ie && s.done

end State

/-- `Check` (R92): the error of a command in a state, "the lowest-numbered code" first. -/
def check (i : Instr) (s : State) : Option CmdError :=
  match i with
  | .pack => if s.byteLength > s.bbufSize then some .lengthRange else none
  | .unpack => if s.blockCount > s.cfg.nmax then some .lengthRange else none
  | .keyload => if s.byteLength > s.bbufSize then some .lengthRange else none
  | .encrypt => if s.blockCount > s.cfg.nmax then some .lengthRange else if s.blockCount < 2 then some .shortBlock else none
  | .decrypt => if s.blockCount > s.cfg.nmax then some .lengthRange else if s.blockCount < 2 then some .shortBlock else none
  | .reservedOp0 => some .illegalCmd
  | .reservedOp6 => some .illegalCmd
  | .reservedOp7 => some .illegalCmd
  | .reservedOp8 => some .illegalCmd
  | .reservedOp9 => some .illegalCmd
  | .reservedOpA => some .illegalCmd
  | .reservedOpB => some .illegalCmd
  | .reservedOpC => some .illegalCmd
  | .reservedOpD => some .illegalCmd
  | .reservedOpE => some .illegalCmd
  | .reservedOpF => some .illegalCmd
  | .reservedRsv _ _ => some .illegalCmd

end Sys2Proof.Machine
end

