-- ==== Sys2Proof/Machine/Cipher.lean ====
section
/-! DEFINITION. The XXTEA cipher engine: ENCRYPT and DECRYPT (41_xxtea_transform.md). -/

namespace Sys2Proof.Machine

/-- R73. -/
def DELTA : Word := 0x9E3779B9

/-- R74: `rounds(n) = 6 + floor(52 / n)`. -/
def rounds (n : Nat) : Nat := 6 + 52 / n

/-- R75: `e = (sum >> 2) & 3`. -/
def selector (sum : Word) : BitVec 2 := (sum >>> 2).setWidth 2

/-- R76: `kidx(p, e) = (p & 3) ^ e`. -/
def kidx (p : Nat) (e : BitVec 2) : BitVec 2 := BitVec.ofNat 2 p ^^^ e

/-- R77, parenthesised as the rule is. -/
def mx (k : Key) (y z sum : Word) (p : Nat) (e : BitVec 2) : Word :=
  (((z >>> 5) ^^^ (y <<< 2)) + ((y >>> 3) ^^^ (z <<< 4))) ^^^ ((sum ^^^ y) + (k.get (kidx p e) ^^^ z))

/-- The block and the word the loop carries: `z` in `teaEncrypt`, `y` in `teaDecrypt`, "the word just written". -/
abbrev Pass := List Word × Word

/-- Position `p` of an encryption round (R78): reads `y` from the array as it stands, writes `v[p]`, carries it as `z`. -/
def encryptStep (k : Key) (sum : Word) (n : Nat) (st : Pass) (p : Nat) : Pass :=
  let y := st.1.getD ((p + 1) % n) 0
  let w := st.1.getD p 0 + mx k y st.2 sum p (selector sum)
  (st.1.set p w, w)

/-- One round of R78: `for p from 0 to n-1`. -/
def encryptRound (k : Key) (sum : Word) (n : Nat) (st : Pass) : Pass := (List.range n).foldl (encryptStep k sum n) st

/-- R78's `repeat` with `r` rounds to go and `sum` before the next addition of DELTA; in the end the block is returned. -/
def encryptRounds (k : Key) (n : Nat) (r : Nat) (sum : Word) (st : Pass) : List Word :=
  match r with
  | 0 => st.1
  | r + 1 => encryptRounds k n r (sum + DELTA) (encryptRound k (sum + DELTA) n st)

/-- R78, `teaEncrypt` on `v[0..n-1]`. -/
def teaEncrypt (k : Key) (v : List Word) : List Word :=
  encryptRounds k v.length (rounds v.length) 0 (v, v.getD (v.length - 1) 0)

/-- Position `p` of a decryption pass (R79): reads `z` from the array as it stands, writes `v[p]`, carries it as `y`. -/
def decryptStep (k : Key) (sum : Word) (n : Nat) (st : Pass) (p : Nat) : Pass :=
  let z := if p > 0 then st.1.getD (p - 1) 0 else st.1.getD (n - 1) 0
  let w := st.1.getD p 0 - mx k st.2 z sum p (selector sum)
  (st.1.set p w, w)

/-- One pass of R79: `for p from n-1 down to 0`. -/
def decryptRound (k : Key) (sum : Word) (n : Nat) (st : Pass) : Pass :=
  (List.range n).reverse.foldl (decryptStep k sum n) st

/-- R79's `while sum != 0`, stopped after `fuel` tests at the latest; in the end the block is returned. -/
def decryptWhile (k : Key) (n : Nat) (fuel : Nat) (sum : Word) (st : Pass) : List Word :=
  match fuel with
  | 0 => st.1
  | fuel + 1 => if sum = 0#32 then st.1 else decryptWhile k n fuel (sum - DELTA) (decryptRound k sum n st)

/-- R79, `teaDecrypt` on `v[0..n-1]`. The loop's test fails at test number `rounds(n) + 1` (R80), so the fuel never
ends it (DEDUCED, safe, notes/assumptions/14.md). -/
def teaDecrypt (k : Key) (v : List Word) : List Word :=
  decryptWhile k v.length (rounds v.length + 1) (BitVec.ofNat 32 (rounds v.length) * DELTA) (v, v.getD 0 0)

/-- ENCRYPT's effect (R83). -/
def encryptEffect (s : State) : State := s.storeWords 0 (teaEncrypt s.key (s.block s.blockCount))

/-- DECRYPT's effect (R84). -/
def decryptEffect (s : State) : State := s.storeWords 0 (teaDecrypt s.key (s.block s.blockCount))

/-- ENCRYPT, `0x00000004` (R83). -/
def execEncrypt (s : State) : Host.Outcome State Fault Refusal := .next (complete (check .encrypt s) encryptEffect s)

/-- DECRYPT, `0x00000005` (R84). -/
def execDecrypt (s : State) : Host.Outcome State Fault Refusal := .next (complete (check .decrypt s) decryptEffect s)

end Sys2Proof.Machine
end

