-- ==== Sys2Proof/Machine/Packer.lean ====
section
/-! DEFINITION. The word-packing unit: PACK, UNPACK, KEYLOAD (40_word_packer.md). -/

namespace Sys2Proof.Machine

/-- Word `i` of `pack b` (R66): bytes `4*i` to `4*i + 3`, little-endian, where a byte past the end is 0. -/
def packWord (b : List Byte) (i : Nat) : Word :=
  let B := fun j => zext32 (b.getD j 0)
  B (4 * i) ||| (B (4 * i + 1) <<< 8) ||| (B (4 * i + 2) <<< 16) ||| (B (4 * i + 3) <<< 24)

/-- `pack` (R66), a sequence of `ceil_div(L, 4)` words. -/
def pack (b : List Byte) : List Word := (List.range (ceilDiv b.length 4)).map (packWord b)

/-- The four bytes of a word, `(w >> (8*j)) & 0xFF` for j = 0 to 3 (R67). -/
def wordBytes (w : Word) : List Byte :=
  [byteLane w, byteLane (w >>> 8), byteLane (w >>> 16), byteLane (w >>> 24)]

/-- `unpack` (R67), a sequence of 4 bytes for each word. -/
def unpack (w : List Word) : List Byte := w.flatMap wordBytes

/-- `keypack` (R68): the words of the first `min(L, 16)` bytes, zero-padded to four. -/
def keypack (b : List Byte) : Key :=
  let w := pack (b.take (min b.length 16))
  ⟨w.getD 0 0, w.getD 1 0, w.getD 2 0, w.getD 3 0⟩

/-- PACK's effect (R69). -/
def packEffect (s : State) : State :=
  (s.storeWords 0 (pack (s.bytes s.byteLength))).setNwords (BitVec.ofNat 16 (ceilDiv s.byteLength 4))

/-- UNPACK's effect (R70). -/
def unpackEffect (s : State) : State :=
  (s.storeBytes 0 (unpack (s.block s.blockCount))).setNbytes (BitVec.ofNat 16 (4 * s.blockCount))

/-- KEYLOAD's effect (R71). -/
def keyloadEffect (s : State) : State := s.setKey (keypack (s.bytes s.byteLength))

/-- PACK, `0x00000001` (R69). -/
def execPack (s : State) : Host.Outcome State Fault Refusal := .next (complete (check .pack s) packEffect s)

/-- UNPACK, `0x00000002` (R70). -/
def execUnpack (s : State) : Host.Outcome State Fault Refusal := .next (complete (check .unpack s) unpackEffect s)

/-- KEYLOAD, `0x00000003` (R71). -/
def execKeyload (s : State) : Host.Outcome State Fault Refusal := .next (complete (check .keyload s) keyloadEffect s)

end Sys2Proof.Machine
end

