-- ==== Sys2Proof/Machine/Reserved.lean ====
section
/-! DEFINITION. The reserved command words: "accepted at issue like any other word", they complete with ILLEGAL_CMD,
"changing nothing but STATUS" (30_encoding.md R61; 60_exceptions.md R91). They have no effect to add to the report. -/

namespace Sys2Proof.Machine

/-- The word `0x00000000` (R61). -/
def execReservedOp0 (s : State) : Host.Outcome State Fault Refusal := .next (complete (check .reservedOp0 s) id s)

/-- The word `0x00000006` (R61). -/
def execReservedOp6 (s : State) : Host.Outcome State Fault Refusal := .next (complete (check .reservedOp6 s) id s)

/-- The word `0x00000007` (R61). -/
def execReservedOp7 (s : State) : Host.Outcome State Fault Refusal := .next (complete (check .reservedOp7 s) id s)

/-- The word `0x00000008` (R61). -/
def execReservedOp8 (s : State) : Host.Outcome State Fault Refusal := .next (complete (check .reservedOp8 s) id s)

/-- The word `0x00000009` (R61). -/
def execReservedOp9 (s : State) : Host.Outcome State Fault Refusal := .next (complete (check .reservedOp9 s) id s)

/-- The word `0x0000000A` (R61). -/
def execReservedOpA (s : State) : Host.Outcome State Fault Refusal := .next (complete (check .reservedOpA s) id s)

/-- The word `0x0000000B` (R61). -/
def execReservedOpB (s : State) : Host.Outcome State Fault Refusal := .next (complete (check .reservedOpB s) id s)

/-- The word `0x0000000C` (R61). -/
def execReservedOpC (s : State) : Host.Outcome State Fault Refusal := .next (complete (check .reservedOpC s) id s)

/-- The word `0x0000000D` (R61). -/
def execReservedOpD (s : State) : Host.Outcome State Fault Refusal := .next (complete (check .reservedOpD s) id s)

/-- The word `0x0000000E` (R61). -/
def execReservedOpE (s : State) : Host.Outcome State Fault Refusal := .next (complete (check .reservedOpE s) id s)

/-- The word `0x0000000F` (R61). -/
def execReservedOpF (s : State) : Host.Outcome State Fault Refusal := .next (complete (check .reservedOpF s) id s)

/-- A word with RSV != 0, whatever its OP (R61). -/
def execReservedRsv (op : BitVec 4) (rsv : BitVec 28) (s : State) : Host.Outcome State Fault Refusal :=
  .next (complete (check (.reservedRsv op rsv) s) id s)

end Sys2Proof.Machine
end

