-- ==== Sys2Proof/Machine/Dispatch.lean ====
section
/-! DEFINITION. exec: the completion step of a command (60_exceptions.md R89), one arm for each constructor. -/

namespace Sys2Proof.Machine

def exec (i : Instr) (s : State) : Host.Outcome State Fault Refusal :=
  match i with
  | .pack => Sys2Proof.Machine.execPack s
  | .unpack => Sys2Proof.Machine.execUnpack s
  | .keyload => Sys2Proof.Machine.execKeyload s
  | .encrypt => Sys2Proof.Machine.execEncrypt s
  | .decrypt => Sys2Proof.Machine.execDecrypt s
  | .reservedOp0 => Sys2Proof.Machine.execReservedOp0 s
  | .reservedOp6 => Sys2Proof.Machine.execReservedOp6 s
  | .reservedOp7 => Sys2Proof.Machine.execReservedOp7 s
  | .reservedOp8 => Sys2Proof.Machine.execReservedOp8 s
  | .reservedOp9 => Sys2Proof.Machine.execReservedOp9 s
  | .reservedOpA => Sys2Proof.Machine.execReservedOpA s
  | .reservedOpB => Sys2Proof.Machine.execReservedOpB s
  | .reservedOpC => Sys2Proof.Machine.execReservedOpC s
  | .reservedOpD => Sys2Proof.Machine.execReservedOpD s
  | .reservedOpE => Sys2Proof.Machine.execReservedOpE s
  | .reservedOpF => Sys2Proof.Machine.execReservedOpF s
  | .reservedRsv op rsv => Sys2Proof.Machine.execReservedRsv op rsv s

end Sys2Proof.Machine
end

