-- ==== Sys2Proof/Machine/HostPort.lean ====
section
/-! DEFINITION. The host port: the address map, which transactions are legal, and what each reads or writes
(20_memory.md R36 to R51; 10_state.md R15 to R27). -/

namespace Sys2Proof.Machine

/-- The host-visible registers, "exactly the eleven of this table" (R15). -/
inductive Reg where
  | id
  | cap
  | ctrl
  | status
  | cmd
  | nwords
  | nbytes
  | key (i : BitVec 2)
deriving DecidableEq, Repr

/-- The register at an offset from BASE (R15); 0x01C is reserved (R39). -/
def regAt (off : Nat) : Option Reg :=
  match off with
  | 0x000 => some .id
  | 0x004 => some .cap
  | 0x008 => some .ctrl
  | 0x00C => some .status
  | 0x010 => some .cmd
  | 0x014 => some .nwords
  | 0x018 => some .nbytes
  | 0x020 => some (.key 0)
  | 0x024 => some (.key 1)
  | 0x028 => some (.key 2)
  | 0x02C => some (.key 3)
  | _ => none

/-- What a transaction names. -/
inductive Target where
  | reg (r : Reg)
  | bbuf (i : Nat)
  | wbuf (i : Nat)
deriving DecidableEq, Repr

/-- What a transaction of this size at this offset names in the map of R39, if anything (R40 to R43, R48). -/
def target (nmax off : Nat) (size : Size) : Option Target :=
  match size with
  | .one => if 0x400 ≤ off ∧ off < 0x400 + 4 * nmax then some (.bbuf (off - 0x400)) else none
  | .two => none
  | .four =>
    if off % 4 = 0 then
      match regAt off with
      | some r => some (.reg r)
      | none => if 0x800 ≤ off ∧ off < 0x800 + 4 * nmax then some (.wbuf ((off - 0x800) / 4)) else none
    else none

/-- R45, `Legal(off, n, we, ENG)`, clause by clause; it does not depend on `we`. -/
def legal (nmax off : Nat) (size : Size) (eng : Engine) : Bool :=
  match size with
  | .one => decide (0x400 ≤ off ∧ off < 0x400 + 4 * nmax) && eng == .idle
  | .two => false
  | .four =>
    if off % 4 = 0 then
      if off ∈ [0x000, 0x004, 0x008, 0x00C] then true
      else if off ∈ [0x010, 0x014, 0x018, 0x020, 0x024, 0x028, 0x02C] then eng == .idle
      else if 0x800 ≤ off ∧ off < 0x800 + 4 * nmax then eng == .idle
      else false
    else false

/-- R17: "the ASCII letters "XTEA" with 'X' in bits 31:24". -/
def idValue : Word := 0x58544541

/-- R18: "Bits 15:0 = NMAX", "Bits 31:16 read 0". -/
def capValue (nmax : Nat) : Word := (BitVec.ofNat 16 nmax).setWidth 32

/-- What a register reads as (R16 to R25). -/
def readReg (s : State) (r : Reg) : Word :=
  match r with
  | .id => idValue
  | .cap => capValue s.cfg.nmax
  | .ctrl => (BitVec.ofBool s.ie).setWidth 32
  | .status => s.statusWord
  | .cmd => 0
  | .nwords => s.nwords.setWidth 32
  | .nbytes => s.nbytes.setWidth 32
  | .key i => s.key.get i

/-- What a write of `v` to a register does (R16 to R25; CMD: 60_exceptions.md R88). -/
def writeReg (s : State) (r : Reg) (v : Word) : State :=
  match r with
  | .id => s
  | .cap => s
  | .ctrl => s.setIe (ieField v)
  | .status => s.writeStatus v
  | .cmd => s.issue v
  | .nwords => s.setNwords (lengthField v)
  | .nbytes => s.setNbytes (lengthField v)
  | .key i => s.setKey (s.key.set i v)

/-- The read of R40, R41 or R42. -/
def readTarget (s : State) (t : Target) : Word :=
  match t with
  | .reg r => readReg s r
  | .bbuf i => zext32 (s.bbufAt i)
  | .wbuf i => s.wbufAt i

/-- The write of R40, R41 or R42. -/
def writeTarget (s : State) (t : Target) (v : Word) : State :=
  match t with
  | .reg r => writeReg s r v
  | .bbuf i => s.storeBytes i [byteLane v]
  | .wbuf i => s.storeWords i [v]

/-- What `Access` (R45) performs, if the transaction is legal. Being legal, it names something (R39 to R43). -/
def permitted (s : State) (off : Nat) (size : Size) : Option Target :=
  if legal s.cfg.nmax off size s.eng then target s.cfg.nmax off size else none

/-- `MemRead(off, n)` (R38): reads have no side effects (R50); a bus error "returns read data 0" (R90). -/
def memRead (s : State) (off : Nat) (size : Size) : State :=
  match permitted s off size with
  | some t => s.respond (.okay (some (readTarget s t)))
  | none => s.respond (.busError (some 0))

/-- `MemWrite(off, n, v)` (R38): a bus error changes no state (R90). -/
def memWrite (s : State) (off : Nat) (size : Size) (v : Word) : State :=
  match permitted s off size with
  | some t => (writeTarget s t v).respond (.okay none)
  | none => s.respond (.busError none)

/-- "the platform decodes BASE" (R38): the offset of a bus address inside the device's 4 KiB window (R39). -/
def offsetOf (cfg : Config) (addr : Nat) : Option Nat :=
  if cfg.base ≤ addr ∧ addr < cfg.base + 0x1000 then some (addr - cfg.base) else none

/-- A host transaction. One outside the window "does not reach XXTEA-CORE" (R38): no state changes and the device gives
no answer (DEDUCED, safe, notes/assumptions/10.md). -/
def hostAccess (s : State) (t : Transaction) : State :=
  match t with
  | .read addr size =>
    match offsetOf s.cfg addr with
    | some off => memRead s off size
    | none => s
  | .write addr size v =>
    match offsetOf s.cfg addr with
    | some off => memWrite s off size v
    | none => s

end Sys2Proof.Machine
end

