-- ==== Sys2Proof/Machine/Step.lean ====
section
/-! DEFINITION. One step of the device: it takes the next event of the inbox, or the engine its turn when there is none. -/

namespace Sys2Proof.Machine

/-- The engine's turn. "While `ENG = BUSY` the engine has exactly one step, the completion step" (60_exceptions.md R89),
of the command that CMDL holds; while idle, or in reset (70_reset_and_hazards.md R103), it takes none. -/
def engineTurn (s : State) : Host.Outcome State Fault Refusal :=
  if s.inReset then .next s
  else
    match s.eng with
    | .idle => .next s
    | .busy => exec (decode s.cmdl) s

/-- What an event does to a state. While `rst_n` is low the device "answers no host transaction and its engine takes no
step" (R103). -/
def handle (e : Event) (s : State) : Host.Outcome State Fault Refusal :=
  match e with
  | .host t => .next (if s.inReset then s else hostAccess s t)
  | .engine => engineTurn s
  | .assertReset => .next s.holdReset
  | .releaseReset => .next s.releaseReset

/-- One step. With nothing more to come from outside, the engine has its turn: a finite inbox never postpones it for
ever, which is R116's weak fairness (DESIGN CHOICE, notes/assumptions/5.md). -/
def step (s : State) : Host.Outcome State Fault Refusal :=
  match s.inbox with
  | [] => engineTurn s.takeEvent
  | e :: _ => handle e s.takeEvent

/-- `s` with the command whose bits are `w` issued (R88) and the engine's turn next, so that the next step runs it: it
stands for the CMD write that starts a command (notes/assumptions/8.md). -/
def State.withFetchWord (s : State) (nbits w : Nat) : State :=
  { s.issue ((BitVec.ofNat nbits w).setWidth 32) with inReset := false, inbox := .engine :: s.inbox }

end Sys2Proof.Machine
end

