-- ==== Sys2Proof/Safety.lean ====
section
/-! DEFINITION. What a good state and a good run are, and what two states may be said to share: the terms the
statements use. -/

namespace Sys2Proof.Machine

/-- The invariant every step keeps. -/
structure Inv (s : State) : Prop where
  /-- R7: the configuration is one the spec allows. -/
  cfg_wf : s.cfg.wf
  /-- R21 (a); (c) is its converse reading. -/
  busy_clear : s.eng = .busy → s.done = false ∧ s.err = false ∧ s.errcode = 0
  /-- R21 (b). -/
  err_iff : s.err = false ↔ s.errcode = 0
  /-- R91: codes 4 to 15 are never written (93_implementation_defined.md U8). -/
  code_known : s.errcode.toNat ≤ 3
  /-- The buffers' lists keep their canonical form, the model's choice (notes/assumptions/18.md) ... -/
  bbuf_wf : Memory.wf s.bbuf
  wbuf_wf : Memory.wf s.wbuf
  /-- ... and list nothing outside BBUF and WBUF: "a command never indexes outside BBUF or WBUF" (R51). -/
  bbuf_below : Memory.below (4 * s.cfg.nmax) s.bbuf
  wbuf_below : Memory.below s.cfg.nmax s.wbuf
  /-- While `rst_n` is low the device has its reset values, and nothing moves it from them. R103 gives the values at the
  release; that they stand from the assertion on is the model's choice (notes/assumptions/9.md). -/
  held : s.inReset = true →
    s.eng = .idle ∧ s.ie = false ∧ s.done = false ∧ s.err = false ∧ s.nwords = 0 ∧ s.nbytes = 0 ∧
      s.key = ⟨0, 0, 0, 0⟩ ∧ s.bbuf = [] ∧ s.wbuf = []

/-- The step just taken answered no bus error. "A model treats a bus error as a fault of the host's program: ... a
claim about a host program takes 'no bus error' as a premise" (60_exceptions.md R90). -/
def noBusError (s : State) : Prop := ∀ d, s.resp ≠ some (.busError d)

/-- A run of `k` steps with no bus error: the premise of R90 for a host program in the inbox. -/
def safeRun (k : Nat) (s : State) : Prop :=
  ∀ j, j ≤ k → ∀ t : State, Host.Core.run core j s = .next t → noBusError t

namespace State

/-- The two states differ in no operand of a command, no buffer element and no length (30_encoding.md R60). -/
def sameOperands (s t : State) : Prop :=
  t.nwords = s.nwords ∧ t.nbytes = s.nbytes ∧ t.key = s.key ∧ (∀ j, t.bbufAt j = s.bbufAt j) ∧
    (∀ i, t.wbufAt i = s.wbufAt i)

/-- The two states agree on everything that is no operand and no status bit: the configuration, CMDL, CTRL.IE, the
reset pin and the number of its resets, and what stands at the port. That CMDL keeps its word once the device is idle
is the model's choice (notes/assumptions/3.md). -/
def sameRest (s t : State) : Prop :=
  t.cfg = s.cfg ∧ t.cmdl = s.cmdl ∧ t.ie = s.ie ∧ t.inReset = s.inReset ∧ t.draw = s.draw ∧ t.inbox = s.inbox ∧
    t.resp = s.resp

/-- What a successful completion writes in STATUS: "DONE <- 1, ERR stays 0", ENG <- IDLE (60_exceptions.md R89). -/
def completedFrom (s t : State) : Prop := t.eng = .idle ∧ t.done = true ∧ t.err = s.err ∧ t.errcode = s.errcode

/-- The state after a failed command: the report in STATUS "and nothing else changes" (R89, R93). That CMDL keeps its
word is the model's choice (notes/assumptions/3.md). -/
def failedWith (s : State) (code : BitVec 4) : State := { s with eng := .idle, done := true, err := true, errcode := code }

/-- The state after the next event has been answered with `r` and nothing else has changed. -/
def answered (s : State) (rest : List Event) (r : Response) : State := { s with inbox := rest, resp := some r }

end State

end Sys2Proof.Machine
end

