-- ==== Sys2Proof/Certificates/Slice0/Obligations.lean ====
section
/-! DEFINITION. The statements about XXTEA-CORE. A step is stated in its own terms: the event at the head of the inbox,
and the state and the port's answer after it. -/

open Sys2Proof Sys2Proof.Machine

/-! Reset -/

/-- R31, R103: what a released reset leaves, whatever the configuration and the draw. The buffers' elements are the
draw's free values (notes/assumptions/1.md). Nothing is said of CMDL. -/
def Obligations.ResetStateValues : Prop :=
  ∀ (cfg : Config) (draw : Nat), cfg.wf →
    let s := State.resetWith cfg draw
    s.eng = .idle ∧ s.busy = false ∧ s.ie = false ∧ s.done = false ∧ s.err = false ∧ s.errcode = 0 ∧ s.statusWord = 0 ∧
      s.nwords = 0 ∧ s.nbytes = 0 ∧ (∀ i, s.key.get i = 0) ∧ readReg s .id = 0x58544541 ∧
      (readReg s .cap).toNat = cfg.nmax ∧ s.irq = false ∧
      (∀ j, s.bbufAt j = Config.freeByte draw j) ∧ (∀ i, s.wbufAt i = Config.freeWord draw i)

/-- R103, R104: a reset, at any moment and also while a command is in progress, followed by any number of transactions
while `rst_n` is low and its release, leaves the reset state with fresh draws; no transaction in between is answered.
The model's choice, not the rules': that ENG is idle and `irq` 0 already while `rst_n` is low (the rules give the values
at release; notes/assumptions/9.md), that CMDL is 0 in `State.resetWith` (notes/assumptions/3.md), and that a fresh draw
is the next draw number (notes/assumptions/1.md). -/
def Obligations.ResetAbandonsEverything : Prop :=
  ∀ (s : State) (ts : List Transaction) (rest : List Event),
    s.inbox = .assertReset :: (ts.map .host ++ .releaseReset :: rest) →
      (∀ k, k ≤ ts.length → ∃ t : State, Host.Core.run core (k + 1) s = .next t ∧ t.resp = none ∧ t.irq = false ∧ t.eng = .idle) ∧
        Host.Core.run core (ts.length + 2) s = .next { State.resetWith s.cfg (s.draw + 1) with inbox := rest }

/-- R105: after reset any legal transaction may be the first; ID and CAP identify the device. That CMDL is 0 in
`State.resetWith` is the model's choice (notes/assumptions/3.md). -/
def Obligations.FirstTransactionAfterReset : Prop :=
  ∀ (cfg : Config) (draw : Nat) (rest : List Event), cfg.wf →
    step { State.resetWith cfg draw with inbox := .host (.read cfg.base .four) :: rest } =
        .next ((State.resetWith cfg draw).answered rest (.okay (some 0x58544541))) ∧
      step { State.resetWith cfg draw with inbox := .host (.read (cfg.base + 4) .four) :: rest } =
        .next ((State.resetWith cfg draw).answered rest (.okay (some (BitVec.ofNat 32 cfg.nmax)))) ∧
      ∀ (addr off : Nat) (size : Size) (v : Word), offsetOf cfg addr = some off → legal cfg.nmax off size .idle = true →
        (∃ t : State, step { State.resetWith cfg draw with inbox := .host (.read addr size) :: rest } = .next t ∧
          ∃ w, t.resp = some (.okay (some w))) ∧
        ∃ t : State, step { State.resetWith cfg draw with inbox := .host (.write addr size v) :: rest } = .next t ∧
          t.resp = some (.okay none)

/-! The registers -/

/-- R15 to R25, R44: what a 4-byte read of each register answers, ID, CAP and CTRL also while a command is in progress;
STATUS has its own statement. -/
def Obligations.RegisterReads : Prop :=
  ∀ (s : State) (rest : List Event) (off : Nat) (v : Word), s.cfg.wf → s.inReset = false →
    s.eng = .idle ∨ off = 0x000 ∨ off = 0x004 ∨ off = 0x008 →
    s.inbox = .host (.read (s.cfg.base + off) .four) :: rest →
    (off, v) ∈
      [(0x000, 0x58544541), (0x004, BitVec.ofNat 32 s.cfg.nmax), (0x008, if s.ie then 1 else 0), (0x010, 0),
        (0x014, s.nwords.setWidth 32), (0x018, s.nbytes.setWidth 32), (0x020, s.key.k0), (0x024, s.key.k1),
        (0x028, s.key.k2), (0x02C, s.key.k3)] →
      step s = .next (s.answered rest (.okay (some v)))

/-- R16 to R19, R23 to R25, R44: what a 4-byte write of each register does, of ID, CAP and CTRL also while a command is
in progress, and that it does nothing else: a length register takes the low 16 bits, CTRL takes bit 0, ID and CAP
ignore the write. -/
def Obligations.RegisterWrites : Prop :=
  ∀ (s : State) (rest : List Event) (off : Nat) (v : Word), s.cfg.wf → s.inReset = false →
    s.eng = .idle ∨ off = 0x000 ∨ off = 0x004 ∨ off = 0x008 →
    s.inbox = .host (.write (s.cfg.base + off) .four v) :: rest →
      let t := s.answered rest (.okay none)
      (off = 0x000 ∨ off = 0x004 → step s = .next t) ∧
        (off = 0x008 → step s = .next { t with ie := v.getLsbD 0 }) ∧
        (off = 0x014 → step s = .next { t with nwords := v.extractLsb' 0 16 }) ∧
        (off = 0x018 → step s = .next { t with nbytes := v.extractLsb' 0 16 }) ∧
        (off = 0x020 → step s = .next { t with key := { s.key with k0 := v } }) ∧
        (off = 0x024 → step s = .next { t with key := { s.key with k1 := v } }) ∧
        (off = 0x028 → step s = .next { t with key := { s.key with k2 := v } }) ∧
        (off = 0x02C → step s = .next { t with key := { s.key with k3 := v } })

/-- R20: the bits a read of STATUS answers, idle or busy, and that it has no side effect. -/
def Obligations.StatusReadBits : Prop :=
  ∀ (s : State) (rest : List Event), s.inReset = false →
    s.inbox = .host (.read (s.cfg.base + 0x00C) .four) :: rest →
      ∃ w : Word, step s = .next (s.answered rest (.okay (some w))) ∧
        (w.getLsbD 0 = true ↔ s.eng = .busy) ∧ w.getLsbD 1 = s.done ∧ w.getLsbD 2 = s.err ∧ w.getLsbD 3 = false ∧
        w.extractLsb' 4 4 = s.errcode ∧ w.extractLsb' 8 24 = 0

/-- R20: a write of `v` to STATUS, idle or busy, does exactly: bit 1 clears DONE, bit 2 clears ERR and ERRCODE. -/
def Obligations.StatusWriteOneToClear : Prop :=
  ∀ (s : State) (rest : List Event) (v : Word), s.inReset = false →
    s.inbox = .host (.write (s.cfg.base + 0x00C) .four v) :: rest →
      step s = .next
        { s.answered rest (.okay none) with
          done := if v.getLsbD 1 then false else s.done
          err := if v.getLsbD 2 then false else s.err
          errcode := if v.getLsbD 2 then 0 else s.errcode }

/-- R95: the interrupt output is `CTRL.IE & STATUS.DONE`. The completion of any command, successful or failed, makes it
IE. A write of CTRL, STATUS or CMD and a reset change it as the rule says, and nothing else lowers it: a step after
which it is 0 though it was 1 before is the host clearing IE or DONE, an issue, or a reset. That a reset lowers it at the
assertion of `rst_n`, and not at the release, is the model's choice (notes/assumptions/9.md). -/
def Obligations.InterruptLevel : Prop :=
  ∀ (s : State), (s.irq = true ↔ s.ie = true ∧ s.done = true) ∧ (∀ i t, exec i s = .next t → t.irq = s.ie) ∧
    (∀ (rest : List Event) (v : Word), s.inReset = false →
      (s.inbox = .host (.write (s.cfg.base + 0x008) .four v) :: rest →
        ∃ t : State, step s = .next t ∧ t.irq = (v.getLsbD 0 && s.done)) ∧
      (s.inbox = .host (.write (s.cfg.base + 0x00C) .four v) :: rest →
        ∃ t : State, step s = .next t ∧ t.irq = (s.irq && !v.getLsbD 1)) ∧
      (s.eng = .idle → s.inbox = .host (.write (s.cfg.base + 0x010) .four v) :: rest →
        ∃ t : State, step s = .next t ∧ t.irq = false)) ∧
    (∀ rest : List Event, s.inbox = .assertReset :: rest → ∃ t : State, step s = .next t ∧ t.irq = false) ∧
    (∀ t : State, step s = .next t → s.irq = true → t.irq = false →
      (∃ rest, s.inbox = .assertReset :: rest) ∨
        ∃ off v rest, s.inbox = .host (.write (s.cfg.base + off) .four v) :: rest ∧
          ((off = 0x008 ∧ v.getLsbD 0 = false) ∨ (off = 0x00C ∧ v.getLsbD 1 = true) ∨ off = 0x010))

/-! Issue, completion and the engine -/

/-- R22, R88: a 4-byte write of any word to CMD while idle issues it, and nothing else changes. -/
def Obligations.CommandWriteIssues : Prop :=
  ∀ (s : State) (rest : List Event) (v : Word), s.inReset = false → s.eng = .idle →
    s.inbox = .host (.write (s.cfg.base + 0x010) .four v) :: rest →
      step s = .next
        { s.answered rest (.okay none) with cmdl := v, eng := .busy, done := false, err := false, errcode := 0 }

/-- R89: when a command is in progress and it is the engine's turn, the step is the completion step of the command that
CMDL holds, taken with the event and the last answer gone. When it is the engine's turn is the model's choice: at an
engine event of the inbox, and at an empty inbox (notes/assumptions/5.md). -/
def Obligations.EngineTurnRunsDecodedCommand : Prop :=
  ∀ (s : State), s.inReset = false → s.eng = .busy → (s.inbox = [] ∨ ∃ rest, s.inbox = .engine :: rest) →
    step s = exec (decode s.cmdl) { s with inbox := s.inbox.tail, resp := none }

/-- R89 gives the engine a step while a command is in progress only, and R103 none while `rst_n` is low. The model's step
must answer something there: that an engine turn without a step of the engine only takes its event is the model's choice
(notes/assumptions/6.md), and so is that an empty inbox is an engine turn (notes/assumptions/5.md). -/
def Obligations.EngineIdleTakesNoStep : Prop :=
  ∀ (s : State), s.inReset = true ∨ s.eng = .idle → (s.inbox = [] ∨ ∃ rest, s.inbox = .engine :: rest) →
    step s = .next { s with inbox := s.inbox.tail, resp := none }

/-- R86, R90: no state stops the device: every step answers a next state. That a bus error is one too, with an error
response, is the model's reading (notes/assumptions/4.md). -/
def Obligations.StepNeverStops : Prop := ∀ s : State, ∃ t : State, step s = .next t

/-- R89: every command's completion step, whatever the command and the state: ENG <- IDLE, DONE <- 1, and ERR and
ERRCODE as Check says. -/
def Obligations.CompletionWritesStatus : Prop :=
  ∀ (i : Instr) (s : State), ∃ t : State, exec i s = .next t ∧ t.eng = .idle ∧ t.done = true ∧
    (check i s = none → t.err = s.err ∧ t.errcode = s.errcode) ∧
    (∀ e, check i s = some e → t.err = true ∧ t.errcode = e.code)

/-- R14: ENG becomes BUSY by a CMD write only, and becomes IDLE by the completion step or by reset only. That the engine
has its turn at an empty inbox too is the model's choice (notes/assumptions/5.md), and so is that a reset makes ENG idle
at its assertion (notes/assumptions/9.md). -/
def Obligations.EngineChangesOnlyByIssueCompletionReset : Prop :=
  ∀ (s t : State), step s = .next t →
    (s.eng = .idle → t.eng = .busy → s.inReset = false ∧
      ∃ v rest, s.inbox = .host (.write (s.cfg.base + 0x010) .four v) :: rest ∧ t.cmdl = v) ∧
    (s.eng = .busy → t.eng = .idle → (∃ rest, s.inbox = .assertReset :: rest) ∨
      (s.inReset = false ∧ (s.inbox = [] ∨ ∃ rest, s.inbox = .engine :: rest) ∧ t.done = true))

/-- R116: every issued command completes. With nothing but transactions and engine turns to come (no reset), a command
in progress is completed within as many steps as there are events left, and one more. The finite inbox, and the engine's
turn when it is empty, are the model's form of the rule's weak fairness (DESIGN CHOICE, notes/assumptions/5.md). -/
def Obligations.EveryCommandCompletes : Prop :=
  ∀ (s : State), s.inReset = false → s.eng = .busy → .assertReset ∉ s.inbox →
    ∃ k, k ≤ s.inbox.length + 1 ∧ ∃ t : State, Host.Core.run core k s = .next t ∧ t.eng = .idle ∧ t.done = true

/-- R44, R49, R52, R113: a command in progress keeps its word and its operands through any transactions. -/
def Obligations.BusyKeepsOperands : Prop :=
  ∀ (s : State) (ts : List Transaction) (rest : List Event), s.inReset = false → s.eng = .busy →
    s.inbox = ts.map .host ++ rest →
      ∃ t : State, Host.Core.run core ts.length s = .next t ∧ t.eng = .busy ∧ t.cmdl = s.cmdl ∧ s.sameOperands t ∧
        t.cfg = s.cfg ∧ t.draw = s.draw ∧ t.inReset = false ∧ t.inbox = rest

/-- R52, R60, R117: a command's result does not depend on how long it takes. A CMD write, any transactions, and then the
engine's turn leave every register, buffer and status bit that the completion step gives when it follows the issue at
once; only CTRL.IE (which the host may write meanwhile) and the port may differ. The delay is the number of transactions
before the engine's turn (notes/assumptions/5.md), and that the idle device still holds the command word in CMDL is the
model's choice (notes/assumptions/3.md). -/
def Obligations.ResultIndependentOfLatency : Prop :=
  ∀ (s : State) (v : Word) (ts : List Transaction) (rest : List Event), s.inReset = false → s.eng = .idle →
    s.inbox = .host (.write (s.cfg.base + 0x010) .four v) :: (ts.map .host ++ .engine :: rest) →
      ∃ t u : State, Host.Core.run core (ts.length + 2) s = .next t ∧ exec (decode v) (s.issue v) = .next u ∧
        t.eng = u.eng ∧ t.done = u.done ∧ t.err = u.err ∧ t.errcode = u.errcode ∧ u.sameOperands t ∧
        t.cmdl = v ∧ t.cfg = s.cfg ∧ t.draw = s.draw ∧ t.inReset = false ∧ t.inbox = rest

/-! The host port -/

/-- R45: Legal says what the map of R39 to R43 and the busy rule R44 say together: the transaction names something, and
while busy that is ID, CAP, CTRL or STATUS. -/
def Obligations.LegalAgreesWithMap : Prop :=
  ∀ (nmax off : Nat) (size : Size) (eng : Engine), nmax ≤ 256 → off < 0x1000 →
    (legal nmax off size eng = true ↔
      ∃ t, target nmax off size = some t ∧
        (eng = .idle ∨ t = .reg .id ∨ t = .reg .cap ∨ t = .reg .ctrl ∨ t = .reg .status))

/-- R43, R48: reserved offsets, window tails beyond NMAX, wrong sizes and misaligned 4-byte accesses are illegal,
whatever the engine does. -/
def Obligations.ReservedSpaceIsIllegal : Prop :=
  ∀ (nmax off : Nat) (size : Size) (eng : Engine), 2 ≤ nmax → nmax ≤ 256 → off < 0x1000 →
    (0x01C ≤ off ∧ off ≤ 0x01F) ∨ (0x030 ≤ off ∧ off ≤ 0x3FF) ∨ (0xC00 ≤ off ∧ off ≤ 0xFFF) ∨
      (0x400 + 4 * nmax ≤ off ∧ off ≤ 0x7FF) ∨ (0x800 + 4 * nmax ≤ off ∧ off ≤ 0xBFF) ∨ size = .two ∨
      (size = .four ∧ off % 4 ≠ 0) ∨ (size = .four ∧ 0x400 ≤ off ∧ off ≤ 0x7FF) ∨
      (size = .one ∧ (off < 0x400 ∨ 0x7FF < off)) →
      legal nmax off size eng = false

/-- R44: while busy the only legal transactions are the 4-byte ones of ID, CAP, CTRL and STATUS. -/
def Obligations.BusyLegalExactly : Prop :=
  ∀ (nmax off : Nat) (size : Size),
    legal nmax off size .busy = true ↔ size = .four ∧ (off = 0x000 ∨ off = 0x004 ∨ off = 0x008 ∨ off = 0x00C)

/-- R90: an illegal transaction is answered with a bus error, a read's data being 0, and changes no state. That it is a
next state and no stop is the model's reading (notes/assumptions/4.md). -/
def Obligations.BusErrorChangesNothing : Prop :=
  ∀ (s : State) (rest : List Event) (addr off : Nat) (size : Size) (v : Word), s.inReset = false →
    offsetOf s.cfg addr = some off → legal s.cfg.nmax off size s.eng = false →
      (s.inbox = .host (.read addr size) :: rest → step s = .next (s.answered rest (.busError (some 0)))) ∧
        (s.inbox = .host (.write addr size v) :: rest → step s = .next (s.answered rest (.busError none)))

/-- R45, R90: a legal transaction is answered OKAY, with read data if it is a read. -/
def Obligations.LegalTransactionIsOkay : Prop :=
  ∀ (s : State) (rest : List Event) (addr off : Nat) (size : Size) (v : Word), s.cfg.wf → s.inReset = false →
    offsetOf s.cfg addr = some off → legal s.cfg.nmax off size s.eng = true →
      (s.inbox = .host (.read addr size) :: rest →
        ∃ t : State, step s = .next t ∧ (∃ w, t.resp = some (.okay (some w))) ∧ noBusError t) ∧
      (s.inbox = .host (.write addr size v) :: rest →
        ∃ t : State, step s = .next t ∧ t.resp = some (.okay none) ∧ noBusError t)

/-- R38: a transaction at an address outside the window does not reach the device. That the device then gives no answer
is the model's reading (notes/assumptions/10.md). -/
def Obligations.OutsideWindowDoesNotReach : Prop :=
  ∀ (s : State) (rest : List Event) (addr : Nat) (size : Size) (v : Word),
    addr < s.cfg.base ∨ s.cfg.base + 0x1000 ≤ addr →
    s.inbox = .host (.read addr size) :: rest ∨ s.inbox = .host (.write addr size v) :: rest →
      step s = .next { s with inbox := rest, resp := none }

/-- R50: a read changes nothing, so the same read repeated answers the same. -/
def Obligations.ReadsHaveNoSideEffect : Prop :=
  ∀ (s : State) (rest : List Event) (addr : Nat) (size : Size),
    s.inbox = .host (.read addr size) :: .host (.read addr size) :: rest →
      ∃ r : Option Response, step s = .next { s with inbox := .host (.read addr size) :: rest, resp := r } ∧
        Host.Core.run core 2 s = .next { s with inbox := rest, resp := r }

/-- R41: byte `i` of BBUF at offset 0x400 + i, read and written while idle; no other byte and nothing else changes. A
4-byte access there, a 2-byte one (R43), and a byte beyond the capacity, is a bus error. -/
def Obligations.ByteWindow : Prop :=
  ∀ (s : State) (rest : List Event) (i : Nat) (v : Word), s.cfg.wf → s.inReset = false → s.eng = .idle → i < 0x400 →
    (s.inbox = .host (.read (s.cfg.base + (0x400 + i)) .one) :: rest →
      step s = .next (s.answered rest
        (if i < 4 * s.cfg.nmax then .okay (some ((s.bbufAt i).setWidth 32)) else .busError (some 0)))) ∧
    (s.inbox = .host (.write (s.cfg.base + (0x400 + i)) .one v) :: rest →
      (4 * s.cfg.nmax ≤ i → step s = .next (s.answered rest (.busError none))) ∧
      (i < 4 * s.cfg.nmax → ∃ t : State, step s = .next t ∧
        (∀ j, t.bbufAt j = if j = i then v.extractLsb' 0 8 else s.bbufAt j) ∧
        { t with bbuf := s.bbuf } = s.answered rest (.okay none))) ∧
    (∀ size, size = .two ∨ size = .four →
      (s.inbox = .host (.read (s.cfg.base + (0x400 + i)) size) :: rest →
        step s = .next (s.answered rest (.busError (some 0)))) ∧
      (s.inbox = .host (.write (s.cfg.base + (0x400 + i)) size v) :: rest →
        step s = .next (s.answered rest (.busError none))))

/-- R42: word `i` of WBUF at offset 0x800 + 4*i, read and written while idle, whatever NWORDS holds; nothing else
changes. A 1-byte access there, a 2-byte one (R43), a misaligned one, and a word beyond NMAX, is a bus error. -/
def Obligations.WordWindow : Prop :=
  ∀ (s : State) (rest : List Event) (i k : Nat) (v : Word), s.cfg.wf → s.inReset = false → s.eng = .idle → i < 0x100 →
    (s.inbox = .host (.read (s.cfg.base + (0x800 + 4 * i)) .four) :: rest →
      step s = .next (s.answered rest
        (if i < s.cfg.nmax then .okay (some (s.wbufAt i)) else .busError (some 0)))) ∧
    (s.inbox = .host (.write (s.cfg.base + (0x800 + 4 * i)) .four v) :: rest →
      (s.cfg.nmax ≤ i → step s = .next (s.answered rest (.busError none))) ∧
      (i < s.cfg.nmax → ∃ t : State, step s = .next t ∧
        (∀ j, t.wbufAt j = if j = i then v else s.wbufAt j) ∧
        { t with wbuf := s.wbuf } = s.answered rest (.okay none))) ∧
    (∀ size, k < 4 → size = .one ∨ size = .two ∨ (size = .four ∧ 0 < k) →
      (s.inbox = .host (.read (s.cfg.base + (0x800 + 4 * i + k)) size) :: rest →
        step s = .next (s.answered rest (.busError (some 0)))) ∧
      (s.inbox = .host (.write (s.cfg.base + (0x800 + 4 * i + k)) size v) :: rest →
        step s = .next (s.answered rest (.busError none))))

/-! Decoding -/

/-- R58: the command words of the opcode map, written out, and reserved words beside them. -/
def Obligations.CommandWordsDecode : Prop :=
  decode 0x00000001 = .pack ∧ decode 0x00000002 = .unpack ∧ decode 0x00000003 = .keyload ∧ decode 0x00000004 = .encrypt ∧
    decode 0x00000005 = .decrypt ∧ decode 0x00000000 = .reservedOp0 ∧ decode 0x00000006 = .reservedOp6 ∧
    decode 0x0000000F = .reservedOpF ∧ decode 0x00000014 = .reservedRsv 0x4 0x0000001 ∧
    decode 0x10000004 = .reservedRsv 0x4 0x1000000 ∧ decode 0xFFFFFFFF = .reservedRsv 0xF 0xFFFFFFF

/-- R57 to R59 (the spec marks R59 as derived from R57 and R58): a word selects an operation only when it is that
operation's word; "the full 32-bit word is compared". Every other word fails Check with ILLEGAL_CMD (R61, R92). -/
def Obligations.OperationWordsExactly : Prop :=
  ∀ c : Word, (decode c = .pack ↔ c = 0x00000001) ∧ (decode c = .unpack ↔ c = 0x00000002) ∧
    (decode c = .keyload ↔ c = 0x00000003) ∧ (decode c = .encrypt ↔ c = 0x00000004) ∧
    (decode c = .decrypt ↔ c = 0x00000005) ∧
    (c ∉ [0x00000001, 0x00000002, 0x00000003, 0x00000004, 0x00000005] →
      ∀ s, check (decode c) s = some .illegalCmd)

/-- Decode and encode agree, in both directions: every well-formed command's word decodes to it, and every one of the
2^32 words is the word of the well-formed command it decodes to. -/
def Obligations.DecodeEncodeAgree : Prop :=
  (∀ i : Instr, i.wellFormed = true → decode (encode i) = i) ∧
    ∀ c : Word, (decode c).wellFormed = true ∧ encode (decode c) = c

/-- The decoder reads by fields (R59) what the opcode table says by mask and match (R58), and no two of the table's
rows of one word overlap. -/
def Obligations.DecodeFollowsOpcodeTable : Prop :=
  (∀ c : Word, decode c = decodeByTable c) ∧
    opcodeRows.Pairwise (fun a b => ∀ c : Word, ¬ (c &&& a.mask = a.pattern ∧ c &&& b.mask = b.pattern))

/-! Command errors -/

/-- R91, R92: the code a completion writes, for every command word, lowest code first; 0 is success. -/
def Obligations.ErrorCodePriority : Prop :=
  ∀ (c : Word) (s t : State), s.err = false → s.errcode = 0 → exec (decode c) s = .next t →
    t.errcode =
        (if c ∉ [0x00000001, 0x00000002, 0x00000003, 0x00000004, 0x00000005] then 1
        else if c ∈ [0x00000001, 0x00000003] ∧ s.nbytes.toNat > 4 * s.cfg.nmax then 2
        else if c ∈ [0x00000002, 0x00000004, 0x00000005] ∧ s.nwords.toNat > s.cfg.nmax then 2
        else if c ∈ [0x00000004, 0x00000005] ∧ s.nwords.toNat < 2 then 3
        else 0) ∧
      (t.err = true ↔ t.errcode ≠ 0)

/-- R93: a failed command has no effect other than STATUS: after any transactions between issue and completion, the
lengths, the key and the buffers are exactly as at issue, and STATUS reports the error. -/
def Obligations.FailedCommandChangesOnlyStatus : Prop :=
  ∀ (s : State) (v : Word) (e : CmdError) (ts : List Transaction) (rest : List Event), s.inReset = false →
    s.eng = .idle → check (decode v) s = some e →
    s.inbox = .host (.write (s.cfg.base + 0x010) .four v) :: (ts.map .host ++ .engine :: rest) →
      ∃ t : State, Host.Core.run core (ts.length + 2) s = .next t ∧ s.sameOperands t ∧ t.eng = .idle ∧ t.done = true ∧
        t.err = true ∧ t.errcode = e.code

/-- R61, R91: the reserved words complete too: with ILLEGAL_CMD, code 1, changing nothing but STATUS, whatever the
lengths hold. That CMDL keeps its word once the device is idle is the model's choice (notes/assumptions/3.md). -/
def Obligations.ReservedWordsComplete : Prop :=
  ∀ (op : BitVec 4) (rsv : BitVec 28) (s : State),
    ∀ i ∈ [Instr.reservedOp0, .reservedOp6, .reservedOp7, .reservedOp8, .reservedOp9, .reservedOpA, .reservedOpB,
        .reservedOpC, .reservedOpD, .reservedOpE, .reservedOpF, .reservedRsv op rsv],
      exec i s = .next (s.failedWith 1)

/-! The word-packing unit -/

/-- R69, with the frame of R60 and the completion of R89: PACK completes for every L <= 4*NMAX: word i of WBUF holds
bytes 4i to 4i+3 of BBUF, byte j at bits 8j+7..8j, 0 past the length, for i < ceil(L/4), NWORDS is ceil(L/4), DONE is
set, and nothing else changes; a longer L fails with LENGTH_RANGE. That CMDL keeps its word once the device is idle is
the model's choice (notes/assumptions/3.md). -/
def Obligations.PackCompletes : Prop :=
  encode .pack = 0x00000001 ∧ ∀ s : State,
    let L := s.nbytes.toNat
    (L ≤ 4 * s.cfg.nmax → ∃ t : State, exec .pack s = .next t ∧
      (∀ i j, i < (L + 3) / 4 → j < 4 →
        (t.wbufAt i).extractLsb' (8 * j) 8 = if 4 * i + j < L then s.bbufAt (4 * i + j) else 0) ∧
      (∀ i, (L + 3) / 4 ≤ i → t.wbufAt i = s.wbufAt i) ∧ t.nwords.toNat = (L + 3) / 4 ∧
      t.nbytes = s.nbytes ∧ t.key = s.key ∧ (∀ j, t.bbufAt j = s.bbufAt j) ∧ s.completedFrom t ∧ s.sameRest t) ∧
    (4 * s.cfg.nmax < L → exec .pack s = .next (s.failedWith 2))

/-- R70, with the frame of R60 and the completion of R89: UNPACK completes for every n <= NMAX: byte 4i+j of BBUF is
bits 8j+7..8j of word i of WBUF for i < n, NBYTES is 4n, DONE is set, and nothing else changes; a larger n fails with
LENGTH_RANGE. That CMDL keeps its word once the device is idle is the model's choice (notes/assumptions/3.md). -/
def Obligations.UnpackCompletes : Prop :=
  encode .unpack = 0x00000002 ∧ ∀ s : State, s.cfg.wf →
    let n := s.nwords.toNat
    (n ≤ s.cfg.nmax → ∃ t : State, exec .unpack s = .next t ∧
      (∀ i j, i < n → j < 4 → t.bbufAt (4 * i + j) = (s.wbufAt i).extractLsb' (8 * j) 8) ∧
      (∀ j, 4 * n ≤ j → t.bbufAt j = s.bbufAt j) ∧ t.nbytes.toNat = 4 * n ∧
      t.nwords = s.nwords ∧ t.key = s.key ∧ (∀ i, t.wbufAt i = s.wbufAt i) ∧ s.completedFrom t ∧ s.sameRest t) ∧
    (s.cfg.nmax < n → exec .unpack s = .next (s.failedWith 2))

/-- R71, with the frame of R60 and the completion of R89: KEYLOAD completes for every L <= 4*NMAX: byte j of key word i
is byte 4i+j of BBUF if that is among the first min(L, 16) bytes, and 0 otherwise; DONE is set, and nothing else
changes; a longer L fails with LENGTH_RANGE. That CMDL keeps its word once the device is idle is the model's choice
(notes/assumptions/3.md). -/
def Obligations.KeyloadCompletes : Prop :=
  encode .keyload = 0x00000003 ∧ ∀ s : State,
    let L := s.nbytes.toNat
    (L ≤ 4 * s.cfg.nmax → ∃ t : State, exec .keyload s = .next t ∧
      (∀ i j, i < 4 → j < 4 →
        (t.key.get (BitVec.ofNat 2 i)).extractLsb' (8 * j) 8 =
          if 4 * i + j < min L 16 then s.bbufAt (4 * i + j) else 0) ∧
      t.nwords = s.nwords ∧ t.nbytes = s.nbytes ∧ (∀ j, t.bbufAt j = s.bbufAt j) ∧
      (∀ i, t.wbufAt i = s.wbufAt i) ∧ s.completedFrom t ∧ s.sameRest t) ∧
    (4 * s.cfg.nmax < L → exec .keyload s = .next (s.failedWith 2))

/-- R66, R67 and the laws of R72, which the spec derives from them, for every byte string and every word sequence. -/
def Obligations.PackerLaws : Prop :=
  (∀ b : List Byte, (pack b).length = (b.length + 3) / 4) ∧ (∀ w : List Word, (unpack w).length = 4 * w.length) ∧
    (∀ b : List Byte, b.length % 4 = 0 → unpack (pack b) = b) ∧
    (∀ b : List Byte, unpack (pack b) = b ++ List.replicate ((4 - b.length % 4) % 4) 0) ∧
    (∀ w : List Word, pack (unpack w) = w) ∧
    (∀ (w : List Word) (i j : Nat), i < w.length → j < 4 →
      ((unpack w).getD (4 * i + j) 0).setWidth 32 = (w.getD i 0 >>> (8 * j)) &&& 0xFF) ∧
    (∀ (b : List Byte) (i : Nat), i < (pack b).length →
      ((pack b).getD i 0).toNat =
        (b.getD (4 * i) 0).toNat + (b.getD (4 * i + 1) 0).toNat * 256 + (b.getD (4 * i + 2) 0).toNat * 65536 +
          (b.getD (4 * i + 3) 0).toNat * 16777216)

/-- R68: keypack is `pack` of the first 16 bytes followed by zero bytes: a short key is zero-padded, never wrapped. This
form of the rule is the spec's own inference from R66, and marked as derived there. -/
def Obligations.KeypackZeroPads : Prop :=
  ∀ b : List Byte,
    let k := keypack b
    [k.k0, k.k1, k.k2, k.k3] = pack (b.take 16 ++ List.replicate (16 - b.length) 0)

/-- R72: PACK followed by UNPACK with no command between leaves BBUF[0..L-1] as it was, writes zero up to the next
multiple of 4, and sets NBYTES to that multiple; no other byte of BBUF changes. -/
def Obligations.PackThenUnpack : Prop :=
  ∀ s : State, s.cfg.wf → s.nbytes.toNat ≤ 4 * s.cfg.nmax →
    ∃ t u : State, exec .pack s = .next t ∧ exec .unpack t = .next u ∧
      (∀ j, u.bbufAt j =
        if s.nbytes.toNat ≤ j ∧ j < 4 * ((s.nbytes.toNat + 3) / 4) then 0 else s.bbufAt j) ∧
      u.nbytes.toNat = 4 * ((s.nbytes.toNat + 3) / 4) ∧ u.err = s.err

/-! The cipher engine -/

/-- R74: the round count is the floor of `6 + 52 / n`, between 6 and 32 for every block, with the values the rule
tabulates. The table, and that the two forms of the floor agree, are the spec's own inferences, marked as derived. -/
def Obligations.RoundCount : Prop :=
  (∀ n, 1 ≤ n → rounds n = (6 * n + 52) / n) ∧ (∀ n, 2 ≤ n → 6 ≤ rounds n ∧ rounds n ≤ 32) ∧
    [2, 3, 4, 5, 6, 7, 8].map rounds = [32, 23, 19, 16, 14, 13, 12] ∧
    ∀ n, (9 ≤ n → n ≤ 10 → rounds n = 11) ∧ (11 ≤ n → n ≤ 13 → rounds n = 10) ∧ (14 ≤ n → n ≤ 17 → rounds n = 9) ∧
      (18 ≤ n → n ≤ 26 → rounds n = 8) ∧ (27 ≤ n → n ≤ 52 → rounds n = 7) ∧ (53 ≤ n → rounds n = 6)

/-- R76: the key index is `(p & 3) ^ e`, always in 0..3, the same for positions 4 apart, and within one round every key
word has a position. -/
def Obligations.KeyIndexWraps : Prop :=
  ∀ (p : Nat) (e : BitVec 2), (kidx p e).toNat = (p % 4) ^^^ e.toNat ∧ kidx (p + 4) e = kidx p e ∧
    ∀ i : BitVec 2, ∃ q, q < 4 ∧ kidx q e = i

/-- R80: the decrypt loop runs exactly `rounds(n)` passes: with any fuel that allows more tests than that it takes the
same passes, pass r (from 0) with sum `(rounds(n) - r) * DELTA`, and ends on `sum = 0`. -/
def Obligations.DecryptLoopCountsRounds : Prop :=
  ∀ (k : Key) (n fuel : Nat) (st : Pass), 2 ≤ n → rounds n < fuel →
    decryptWhile k n fuel (BitVec.ofNat 32 (rounds n) * DELTA) st =
      ((List.range (rounds n)).foldl
        (fun st r => decryptRound k (BitVec.ofNat 32 (rounds n - r) * DELTA) n st) st).1

namespace Sys2Proof.Reference

/-- R75 to R77 written out: the words' two shifted pairs, and the key word at index `(p mod 4) xor e` with `e` bits 3:2 of
`sum`. -/
def mix (k : Key) (y z sum : Word) (p : Nat) : Word :=
  let e := (sum.toNat / 4) % 4
  let w := [k.k0, k.k1, k.k2, k.k3].getD ((p % 4) ^^^ e) 0
  (((z >>> 5) ^^^ (y <<< 2)) + ((y >>> 3) ^^^ (z <<< 4))) ^^^ ((sum ^^^ y) + (w ^^^ z))

/-- R78 said without a carried word and without a running sum: the array (as a function of the position) after `g`
updates. Update number `g` is position `g mod n` of round `g / n + 1`, whose sum is `(g / n + 1) * DELTA`; `y` and `z`
are the array's words at the next and the previous position as they stand. -/
def encrypt (k : Key) (n : Nat) (v : Nat → Word) (g : Nat) : Nat → Word :=
  match g with
  | 0 => v
  | g + 1 =>
    let a := encrypt k n v g
    let p := g % n
    let sum := BitVec.ofNat 32 (g / n + 1) * 0x9E3779B9
    fun i => if i = p then a p + mix k (a ((p + 1) % n)) (a ((p + n - 1) % n)) sum p else a i

/-- R79 in the same way: update number `g` is position `n - 1 - g mod n` of pass `g / n + 1`, whose sum is
`(rounds(n) - g / n) * DELTA`. -/
def decrypt (k : Key) (n : Nat) (v : Nat → Word) (g : Nat) : Nat → Word :=
  match g with
  | 0 => v
  | g + 1 =>
    let a := decrypt k n v g
    let p := n - 1 - g % n
    let sum := BitVec.ofNat 32 (6 + 52 / n - g / n) * 0x9E3779B9
    fun i => if i = p then a p - mix k (a ((p + 1) % n)) (a ((p + n - 1) % n)) sum p else a i

end Sys2Proof.Reference

/-- R73 to R78: teaEncrypt gives the words of the reference after `rounds(n) * n` updates, and as many words as it was
given. The reference shares no function with the model; its closed form of the sums is an inference from R78's loop. -/
def Obligations.TeaEncryptMeetsReference : Prop :=
  ∀ (k : Key) (v : List Word), 2 ≤ v.length →
    (teaEncrypt k v).length = v.length ∧
      ∀ i, i < v.length →
        (teaEncrypt k v).getD i 0 =
          Reference.encrypt k v.length (fun j => v.getD j 0) ((6 + 52 / v.length) * v.length) i

/-- R73 to R77, R79, and R80, which the spec marks as derived: teaDecrypt gives the words of the reference after
`rounds(n) * n` updates, and as many words as it was given. The reference shares no function with the model. -/
def Obligations.TeaDecryptMeetsReference : Prop :=
  ∀ (k : Key) (v : List Word), 2 ≤ v.length →
    (teaDecrypt k v).length = v.length ∧
      ∀ i, i < v.length →
        (teaDecrypt k v).getD i 0 =
          Reference.decrypt k v.length (fun j => v.getD j 0) ((6 + 52 / v.length) * v.length) i

/-- R81: decryption undoes encryption, and encryption undoes decryption, for every key and every block of 2 words or
more. The second direction is the spec's own inference, marked as derived. -/
def Obligations.TeaDecryptInvertsTeaEncrypt : Prop :=
  ∀ (k : Key) (v : List Word), 2 ≤ v.length → teaDecrypt k (teaEncrypt k v) = v ∧ teaEncrypt k (teaDecrypt k v) = v

/-- R83, with the frame of R60 and the completion of R89: ENCRYPT completes for every 2 <= n <= NMAX: WBUF[0..n-1] is
teaEncrypt of what it was under KEY, DONE is set, and nothing else changes; n > NMAX fails with LENGTH_RANGE and n < 2
with SHORT_BLOCK. That CMDL keeps its word once the device is idle is the model's choice (notes/assumptions/3.md). -/
def Obligations.EncryptCompletes : Prop :=
  encode .encrypt = 0x00000004 ∧ ∀ s : State, s.cfg.wf →
    let n := s.nwords.toNat
    (2 ≤ n → n ≤ s.cfg.nmax → ∃ t : State, exec .encrypt s = .next t ∧
      (∀ i, i < n → t.wbufAt i = (teaEncrypt s.key ((List.range n).map s.wbufAt)).getD i 0) ∧
      (∀ i, n ≤ i → t.wbufAt i = s.wbufAt i) ∧ t.nwords = s.nwords ∧ t.nbytes = s.nbytes ∧ t.key = s.key ∧
      (∀ j, t.bbufAt j = s.bbufAt j) ∧ s.completedFrom t ∧ s.sameRest t) ∧
    (s.cfg.nmax < n → exec .encrypt s = .next (s.failedWith 2)) ∧ (n < 2 → exec .encrypt s = .next (s.failedWith 3))

/-- R84, with the frame of R60 and the completion of R89: DECRYPT completes for every 2 <= n <= NMAX: WBUF[0..n-1] is
teaDecrypt of what it was under KEY, DONE is set, and nothing else changes; n > NMAX fails with LENGTH_RANGE and n < 2
with SHORT_BLOCK. That CMDL keeps its word once the device is idle is the model's choice (notes/assumptions/3.md). -/
def Obligations.DecryptCompletes : Prop :=
  encode .decrypt = 0x00000005 ∧ ∀ s : State, s.cfg.wf →
    let n := s.nwords.toNat
    (2 ≤ n → n ≤ s.cfg.nmax → ∃ t : State, exec .decrypt s = .next t ∧
      (∀ i, i < n → t.wbufAt i = (teaDecrypt s.key ((List.range n).map s.wbufAt)).getD i 0) ∧
      (∀ i, n ≤ i → t.wbufAt i = s.wbufAt i) ∧ t.nwords = s.nwords ∧ t.nbytes = s.nbytes ∧ t.key = s.key ∧
      (∀ j, t.bbufAt j = s.bbufAt j) ∧ s.completedFrom t ∧ s.sameRest t) ∧
    (s.cfg.nmax < n → exec .decrypt s = .next (s.failedWith 2)) ∧ (n < 2 → exec .decrypt s = .next (s.failedWith 3))

/-- R81 at the device: an ENCRYPT followed by a DECRYPT with the same NWORDS and KEY leaves every word of WBUF as it was,
and likewise the other way round. -/
def Obligations.DecryptUndoesEncryptOnDevice : Prop :=
  ∀ s : State, 2 ≤ s.nwords.toNat → s.nwords.toNat ≤ s.cfg.nmax →
    (∃ t u : State, exec .encrypt s = .next t ∧ exec .decrypt t = .next u ∧ s.sameOperands u) ∧
      ∃ t u : State, exec .decrypt s = .next t ∧ exec .encrypt t = .next u ∧ s.sameOperands u

/-! What a command may touch -/

namespace Sys2Proof.Reference

/-- The reads of each command's row of R60: two states agree on them (and on the capacity that Check reads). -/
def agreeOnReads (i : Instr) (s s' : State) : Prop :=
  s.cfg.nmax = s'.cfg.nmax ∧
    match i with
    | .pack => s.nbytes = s'.nbytes ∧ ∀ j, j < s.nbytes.toNat → s.bbufAt j = s'.bbufAt j
    | .unpack => s.nwords = s'.nwords ∧ ∀ j, j < s.nwords.toNat → s.wbufAt j = s'.wbufAt j
    | .keyload => s.nbytes = s'.nbytes ∧ ∀ j, j < min s.nbytes.toNat 16 → s.bbufAt j = s'.bbufAt j
    | .encrypt => s.nwords = s'.nwords ∧ (∀ j, j < s.nwords.toNat → s.wbufAt j = s'.wbufAt j) ∧ s.key = s'.key
    | .decrypt => s.nwords = s'.nwords ∧ (∀ j, j < s.nwords.toNat → s.wbufAt j = s'.wbufAt j) ∧ s.key = s'.key
    | _ => True

/-- The writes of each command's row of R60: `t` and `t'`, the states after it, agree on them. -/
def agreeOnWrites (i : Instr) (s t t' : State) : Prop :=
  match i with
  | .pack => t.nwords = t'.nwords ∧ ∀ j, j < (s.nbytes.toNat + 3) / 4 → t.wbufAt j = t'.wbufAt j
  | .unpack => t.nbytes = t'.nbytes ∧ ∀ j, j < 4 * s.nwords.toNat → t.bbufAt j = t'.bbufAt j
  | .keyload => t.key = t'.key
  | .encrypt => ∀ j, j < s.nwords.toNat → t.wbufAt j = t'.wbufAt j
  | .decrypt => ∀ j, j < s.nwords.toNat → t.wbufAt j = t'.wbufAt j
  | _ => True

end Sys2Proof.Reference

/-- R60: "No command reads ... anything not in its row": two states that agree on a command's reads fail alike or
agree on its writes. -/
def Obligations.CommandsReadOnlyTheirOperands : Prop :=
  ∀ (i : Instr) (s s' : State), Reference.agreeOnReads i s s' →
    check i s = check i s' ∧
      (check i s = none → ∃ t t' : State, exec i s = .next t ∧ exec i s' = .next t' ∧ Reference.agreeOnWrites i s t t')

/-- R60: "No command ... writes anything not in its row", but STATUS (and ENG, R89): PACK writes NWORDS and the first
ceil(L/4) words, UNPACK NBYTES and the first 4n bytes, KEYLOAD the key, ENCRYPT and DECRYPT the first n words. That the
idle device keeps CMDL is the model's choice (notes/assumptions/3.md). -/
def Obligations.CommandsWriteOnlyTheirOperands : Prop :=
  ∀ (i : Instr) (s t : State), exec i s = .next t →
    (i ≠ .pack → t.nwords = s.nwords) ∧ (i ≠ .unpack → t.nbytes = s.nbytes ∧ ∀ j, t.bbufAt j = s.bbufAt j) ∧
      (i ≠ .keyload → t.key = s.key) ∧
      (i ≠ .pack → i ≠ .encrypt → i ≠ .decrypt → ∀ j, t.wbufAt j = s.wbufAt j) ∧
      (i = .pack → ∀ j, (s.nbytes.toNat + 3) / 4 ≤ j → t.wbufAt j = s.wbufAt j) ∧
      (i = .encrypt ∨ i = .decrypt → ∀ j, s.nwords.toNat ≤ j → t.wbufAt j = s.wbufAt j) ∧
      (i = .unpack → ∀ j, 4 * s.nwords.toNat ≤ j → t.bbufAt j = s.bbufAt j) ∧ s.sameRest t

/-- R115: KEY survives everything but KEYLOAD, the host's writes of KEY0 to KEY3 and reset. That KEYLOAD completes at an
empty inbox too (notes/assumptions/5.md) and that a reset changes KEY at its assertion (9.md) are the model's choice. -/
def Obligations.KeyChangesOnlyByKeyloadHostReset : Prop :=
  ∀ (s t : State), step s = .next t → t.key ≠ s.key →
    (∃ rest, s.inbox = .assertReset :: rest) ∨
      (s.inReset = false ∧ s.eng = .idle ∧ ∃ addr v rest, s.inbox = .host (.write addr .four v) :: rest ∧
        (addr = s.cfg.base + 0x020 ∨ addr = s.cfg.base + 0x024 ∨ addr = s.cfg.base + 0x028 ∨
          addr = s.cfg.base + 0x02C)) ∨
      (s.inReset = false ∧ s.eng = .busy ∧ s.cmdl = 0x00000003 ∧ (s.inbox = [] ∨ ∃ rest, s.inbox = .engine :: rest))

/-! The invariant -/

/-- R21, R31: the reset state of every legal configuration meets the invariant, and so does the model's `State.reset`.
The canonical form of the buffers' lists is the model's choice (notes/assumptions/18.md). -/
def Obligations.ResetMeetsInvariant : Prop :=
  (∀ (cfg : Config) (draw : Nat), cfg.wf → Inv (State.resetWith cfg draw)) ∧ Inv State.reset

/-- R21, R51, R91, R103: every step, from every state that meets the invariant, whatever comes from outside, keeps it:
STATUS's bits stay as R21 says, no code but 0 to 3 is reported, nothing is written outside a buffer's capacity, and the
configuration stays legal. Two clauses are the model's choice: that the buffers' lists stay in canonical form
(notes/assumptions/18.md), and that a device held in reset has its reset values before the release, which is where R103
gives them (notes/assumptions/9.md). -/
def Obligations.StepKeepsInvariant : Prop := ∀ (s t : State), Inv s → step s = .next t → Inv t

/-! The mixing function -/

/-- R77 with R9's operations on numbers: `+` modulo 2^32, `<<` a product modulo 2^32, `>>` a floor division; the key word
is the one at `(p mod 4) xor e` (R76). -/
def Obligations.MixingFunction : Prop :=
  ∀ (k : Key) (y z sum : Word) (p : Nat) (e : BitVec 2),
    (mx k y z sum p e).toNat =
      (((z.toNat / 32) ^^^ (y.toNat * 4 % 4294967296)) + ((y.toNat / 8) ^^^ (z.toNat * 16 % 4294967296))) % 4294967296 ^^^
        ((sum.toNat ^^^ y.toNat) +
          (([k.k0, k.k1, k.k2, k.k3].getD ((p % 4) ^^^ e.toNat) 0).toNat ^^^ z.toNat)) % 4294967296
end

