-- ==== Sys2Proof/Laws/State.lean ====
section
/-! SUPPORT. For every named update of State, each field after it. The proofs read `by rfl` and not `rfl`: simp then
rewrites with the lemma, where with `rfl` the kernel would compare the updated states and unfold what they store. -/

namespace Sys2Proof.Machine.State

section storeBytes
variable (s : State) (i : Nat) (bs : List Byte)
@[simp] theorem storeBytes_cfg : (s.storeBytes i bs).cfg = s.cfg := by rfl
@[simp] theorem storeBytes_eng : (s.storeBytes i bs).eng = s.eng := by rfl
@[simp] theorem storeBytes_cmdl : (s.storeBytes i bs).cmdl = s.cmdl := by rfl
@[simp] theorem storeBytes_ie : (s.storeBytes i bs).ie = s.ie := by rfl
@[simp] theorem storeBytes_done : (s.storeBytes i bs).done = s.done := by rfl
@[simp] theorem storeBytes_err : (s.storeBytes i bs).err = s.err := by rfl
@[simp] theorem storeBytes_errcode : (s.storeBytes i bs).errcode = s.errcode := by rfl
@[simp] theorem storeBytes_nwords : (s.storeBytes i bs).nwords = s.nwords := by rfl
@[simp] theorem storeBytes_nbytes : (s.storeBytes i bs).nbytes = s.nbytes := by rfl
@[simp] theorem storeBytes_key : (s.storeBytes i bs).key = s.key := by rfl
@[simp] theorem storeBytes_bbuf : (s.storeBytes i bs).bbuf = Memory.writeFrom s.bbuf i bs := by rfl
@[simp] theorem storeBytes_wbuf : (s.storeBytes i bs).wbuf = s.wbuf := by rfl
@[simp] theorem storeBytes_draw : (s.storeBytes i bs).draw = s.draw := by rfl
@[simp] theorem storeBytes_inReset : (s.storeBytes i bs).inReset = s.inReset := by rfl
@[simp] theorem storeBytes_inbox : (s.storeBytes i bs).inbox = s.inbox := by rfl
@[simp] theorem storeBytes_resp : (s.storeBytes i bs).resp = s.resp := by rfl
end storeBytes

section storeWords
variable (s : State) (i : Nat) (ws : List Word)
@[simp] theorem storeWords_cfg : (s.storeWords i ws).cfg = s.cfg := by rfl
@[simp] theorem storeWords_eng : (s.storeWords i ws).eng = s.eng := by rfl
@[simp] theorem storeWords_cmdl : (s.storeWords i ws).cmdl = s.cmdl := by rfl
@[simp] theorem storeWords_ie : (s.storeWords i ws).ie = s.ie := by rfl
@[simp] theorem storeWords_done : (s.storeWords i ws).done = s.done := by rfl
@[simp] theorem storeWords_err : (s.storeWords i ws).err = s.err := by rfl
@[simp] theorem storeWords_errcode : (s.storeWords i ws).errcode = s.errcode := by rfl
@[simp] theorem storeWords_nwords : (s.storeWords i ws).nwords = s.nwords := by rfl
@[simp] theorem storeWords_nbytes : (s.storeWords i ws).nbytes = s.nbytes := by rfl
@[simp] theorem storeWords_key : (s.storeWords i ws).key = s.key := by rfl
@[simp] theorem storeWords_bbuf : (s.storeWords i ws).bbuf = s.bbuf := by rfl
@[simp] theorem storeWords_wbuf : (s.storeWords i ws).wbuf = Memory.writeFrom s.wbuf i ws := by rfl
@[simp] theorem storeWords_draw : (s.storeWords i ws).draw = s.draw := by rfl
@[simp] theorem storeWords_inReset : (s.storeWords i ws).inReset = s.inReset := by rfl
@[simp] theorem storeWords_inbox : (s.storeWords i ws).inbox = s.inbox := by rfl
@[simp] theorem storeWords_resp : (s.storeWords i ws).resp = s.resp := by rfl
end storeWords

section setNwords
variable (s : State) (v : BitVec 16)
@[simp] theorem setNwords_cfg : (s.setNwords v).cfg = s.cfg := by rfl
@[simp] theorem setNwords_eng : (s.setNwords v).eng = s.eng := by rfl
@[simp] theorem setNwords_cmdl : (s.setNwords v).cmdl = s.cmdl := by rfl
@[simp] theorem setNwords_ie : (s.setNwords v).ie = s.ie := by rfl
@[simp] theorem setNwords_done : (s.setNwords v).done = s.done := by rfl
@[simp] theorem setNwords_err : (s.setNwords v).err = s.err := by rfl
@[simp] theorem setNwords_errcode : (s.setNwords v).errcode = s.errcode := by rfl
@[simp] theorem setNwords_nwords : (s.setNwords v).nwords = v := by rfl
@[simp] theorem setNwords_nbytes : (s.setNwords v).nbytes = s.nbytes := by rfl
@[simp] theorem setNwords_key : (s.setNwords v).key = s.key := by rfl
@[simp] theorem setNwords_bbuf : (s.setNwords v).bbuf = s.bbuf := by rfl
@[simp] theorem setNwords_wbuf : (s.setNwords v).wbuf = s.wbuf := by rfl
@[simp] theorem setNwords_draw : (s.setNwords v).draw = s.draw := by rfl
@[simp] theorem setNwords_inReset : (s.setNwords v).inReset = s.inReset := by rfl
@[simp] theorem setNwords_inbox : (s.setNwords v).inbox = s.inbox := by rfl
@[simp] theorem setNwords_resp : (s.setNwords v).resp = s.resp := by rfl
end setNwords

section setNbytes
variable (s : State) (v : BitVec 16)
@[simp] theorem setNbytes_cfg : (s.setNbytes v).cfg = s.cfg := by rfl
@[simp] theorem setNbytes_eng : (s.setNbytes v).eng = s.eng := by rfl
@[simp] theorem setNbytes_cmdl : (s.setNbytes v).cmdl = s.cmdl := by rfl
@[simp] theorem setNbytes_ie : (s.setNbytes v).ie = s.ie := by rfl
@[simp] theorem setNbytes_done : (s.setNbytes v).done = s.done := by rfl
@[simp] theorem setNbytes_err : (s.setNbytes v).err = s.err := by rfl
@[simp] theorem setNbytes_errcode : (s.setNbytes v).errcode = s.errcode := by rfl
@[simp] theorem setNbytes_nwords : (s.setNbytes v).nwords = s.nwords := by rfl
@[simp] theorem setNbytes_nbytes : (s.setNbytes v).nbytes = v := by rfl
@[simp] theorem setNbytes_key : (s.setNbytes v).key = s.key := by rfl
@[simp] theorem setNbytes_bbuf : (s.setNbytes v).bbuf = s.bbuf := by rfl
@[simp] theorem setNbytes_wbuf : (s.setNbytes v).wbuf = s.wbuf := by rfl
@[simp] theorem setNbytes_draw : (s.setNbytes v).draw = s.draw := by rfl
@[simp] theorem setNbytes_inReset : (s.setNbytes v).inReset = s.inReset := by rfl
@[simp] theorem setNbytes_inbox : (s.setNbytes v).inbox = s.inbox := by rfl
@[simp] theorem setNbytes_resp : (s.setNbytes v).resp = s.resp := by rfl
end setNbytes

section setKey
variable (s : State) (k : Key)
@[simp] theorem setKey_cfg : (s.setKey k).cfg = s.cfg := by rfl
@[simp] theorem setKey_eng : (s.setKey k).eng = s.eng := by rfl
@[simp] theorem setKey_cmdl : (s.setKey k).cmdl = s.cmdl := by rfl
@[simp] theorem setKey_ie : (s.setKey k).ie = s.ie := by rfl
@[simp] theorem setKey_done : (s.setKey k).done = s.done := by rfl
@[simp] theorem setKey_err : (s.setKey k).err = s.err := by rfl
@[simp] theorem setKey_errcode : (s.setKey k).errcode = s.errcode := by rfl
@[simp] theorem setKey_nwords : (s.setKey k).nwords = s.nwords := by rfl
@[simp] theorem setKey_nbytes : (s.setKey k).nbytes = s.nbytes := by rfl
@[simp] theorem setKey_key : (s.setKey k).key = k := by rfl
@[simp] theorem setKey_bbuf : (s.setKey k).bbuf = s.bbuf := by rfl
@[simp] theorem setKey_wbuf : (s.setKey k).wbuf = s.wbuf := by rfl
@[simp] theorem setKey_draw : (s.setKey k).draw = s.draw := by rfl
@[simp] theorem setKey_inReset : (s.setKey k).inReset = s.inReset := by rfl
@[simp] theorem setKey_inbox : (s.setKey k).inbox = s.inbox := by rfl
@[simp] theorem setKey_resp : (s.setKey k).resp = s.resp := by rfl
end setKey

section setIe
variable (s : State) (b : Bool)
@[simp] theorem setIe_cfg : (s.setIe b).cfg = s.cfg := by rfl
@[simp] theorem setIe_eng : (s.setIe b).eng = s.eng := by rfl
@[simp] theorem setIe_cmdl : (s.setIe b).cmdl = s.cmdl := by rfl
@[simp] theorem setIe_ie : (s.setIe b).ie = b := by rfl
@[simp] theorem setIe_done : (s.setIe b).done = s.done := by rfl
@[simp] theorem setIe_err : (s.setIe b).err = s.err := by rfl
@[simp] theorem setIe_errcode : (s.setIe b).errcode = s.errcode := by rfl
@[simp] theorem setIe_nwords : (s.setIe b).nwords = s.nwords := by rfl
@[simp] theorem setIe_nbytes : (s.setIe b).nbytes = s.nbytes := by rfl
@[simp] theorem setIe_key : (s.setIe b).key = s.key := by rfl
@[simp] theorem setIe_bbuf : (s.setIe b).bbuf = s.bbuf := by rfl
@[simp] theorem setIe_wbuf : (s.setIe b).wbuf = s.wbuf := by rfl
@[simp] theorem setIe_draw : (s.setIe b).draw = s.draw := by rfl
@[simp] theorem setIe_inReset : (s.setIe b).inReset = s.inReset := by rfl
@[simp] theorem setIe_inbox : (s.setIe b).inbox = s.inbox := by rfl
@[simp] theorem setIe_resp : (s.setIe b).resp = s.resp := by rfl
end setIe

section clearDone
variable (s : State)
@[simp] theorem clearDone_cfg : s.clearDone.cfg = s.cfg := by rfl
@[simp] theorem clearDone_eng : s.clearDone.eng = s.eng := by rfl
@[simp] theorem clearDone_cmdl : s.clearDone.cmdl = s.cmdl := by rfl
@[simp] theorem clearDone_ie : s.clearDone.ie = s.ie := by rfl
@[simp] theorem clearDone_done : s.clearDone.done = false := by rfl
@[simp] theorem clearDone_err : s.clearDone.err = s.err := by rfl
@[simp] theorem clearDone_errcode : s.clearDone.errcode = s.errcode := by rfl
@[simp] theorem clearDone_nwords : s.clearDone.nwords = s.nwords := by rfl
@[simp] theorem clearDone_nbytes : s.clearDone.nbytes = s.nbytes := by rfl
@[simp] theorem clearDone_key : s.clearDone.key = s.key := by rfl
@[simp] theorem clearDone_bbuf : s.clearDone.bbuf = s.bbuf := by rfl
@[simp] theorem clearDone_wbuf : s.clearDone.wbuf = s.wbuf := by rfl
@[simp] theorem clearDone_draw : s.clearDone.draw = s.draw := by rfl
@[simp] theorem clearDone_inReset : s.clearDone.inReset = s.inReset := by rfl
@[simp] theorem clearDone_inbox : s.clearDone.inbox = s.inbox := by rfl
@[simp] theorem clearDone_resp : s.clearDone.resp = s.resp := by rfl
end clearDone

section clearErr
variable (s : State)
@[simp] theorem clearErr_cfg : s.clearErr.cfg = s.cfg := by rfl
@[simp] theorem clearErr_eng : s.clearErr.eng = s.eng := by rfl
@[simp] theorem clearErr_cmdl : s.clearErr.cmdl = s.cmdl := by rfl
@[simp] theorem clearErr_ie : s.clearErr.ie = s.ie := by rfl
@[simp] theorem clearErr_done : s.clearErr.done = s.done := by rfl
@[simp] theorem clearErr_err : s.clearErr.err = false := by rfl
@[simp] theorem clearErr_errcode : s.clearErr.errcode = 0 := by rfl
@[simp] theorem clearErr_nwords : s.clearErr.nwords = s.nwords := by rfl
@[simp] theorem clearErr_nbytes : s.clearErr.nbytes = s.nbytes := by rfl
@[simp] theorem clearErr_key : s.clearErr.key = s.key := by rfl
@[simp] theorem clearErr_bbuf : s.clearErr.bbuf = s.bbuf := by rfl
@[simp] theorem clearErr_wbuf : s.clearErr.wbuf = s.wbuf := by rfl
@[simp] theorem clearErr_draw : s.clearErr.draw = s.draw := by rfl
@[simp] theorem clearErr_inReset : s.clearErr.inReset = s.inReset := by rfl
@[simp] theorem clearErr_inbox : s.clearErr.inbox = s.inbox := by rfl
@[simp] theorem clearErr_resp : s.clearErr.resp = s.resp := by rfl
end clearErr

section issue
variable (s : State) (v : Word)
@[simp] theorem issue_cfg : (s.issue v).cfg = s.cfg := by rfl
@[simp] theorem issue_eng : (s.issue v).eng = .busy := by rfl
@[simp] theorem issue_cmdl : (s.issue v).cmdl = v := by rfl
@[simp] theorem issue_ie : (s.issue v).ie = s.ie := by rfl
@[simp] theorem issue_done : (s.issue v).done = false := by rfl
@[simp] theorem issue_err : (s.issue v).err = false := by rfl
@[simp] theorem issue_errcode : (s.issue v).errcode = 0 := by rfl
@[simp] theorem issue_nwords : (s.issue v).nwords = s.nwords := by rfl
@[simp] theorem issue_nbytes : (s.issue v).nbytes = s.nbytes := by rfl
@[simp] theorem issue_key : (s.issue v).key = s.key := by rfl
@[simp] theorem issue_bbuf : (s.issue v).bbuf = s.bbuf := by rfl
@[simp] theorem issue_wbuf : (s.issue v).wbuf = s.wbuf := by rfl
@[simp] theorem issue_draw : (s.issue v).draw = s.draw := by rfl
@[simp] theorem issue_inReset : (s.issue v).inReset = s.inReset := by rfl
@[simp] theorem issue_inbox : (s.issue v).inbox = s.inbox := by rfl
@[simp] theorem issue_resp : (s.issue v).resp = s.resp := by rfl
end issue

section respond
variable (s : State) (r : Response)
@[simp] theorem respond_cfg : (s.respond r).cfg = s.cfg := by rfl
@[simp] theorem respond_eng : (s.respond r).eng = s.eng := by rfl
@[simp] theorem respond_cmdl : (s.respond r).cmdl = s.cmdl := by rfl
@[simp] theorem respond_ie : (s.respond r).ie = s.ie := by rfl
@[simp] theorem respond_done : (s.respond r).done = s.done := by rfl
@[simp] theorem respond_err : (s.respond r).err = s.err := by rfl
@[simp] theorem respond_errcode : (s.respond r).errcode = s.errcode := by rfl
@[simp] theorem respond_nwords : (s.respond r).nwords = s.nwords := by rfl
@[simp] theorem respond_nbytes : (s.respond r).nbytes = s.nbytes := by rfl
@[simp] theorem respond_key : (s.respond r).key = s.key := by rfl
@[simp] theorem respond_bbuf : (s.respond r).bbuf = s.bbuf := by rfl
@[simp] theorem respond_wbuf : (s.respond r).wbuf = s.wbuf := by rfl
@[simp] theorem respond_draw : (s.respond r).draw = s.draw := by rfl
@[simp] theorem respond_inReset : (s.respond r).inReset = s.inReset := by rfl
@[simp] theorem respond_inbox : (s.respond r).inbox = s.inbox := by rfl
@[simp] theorem respond_resp : (s.respond r).resp = some r := by rfl
end respond

section takeEvent
variable (s : State)
@[simp] theorem takeEvent_cfg : s.takeEvent.cfg = s.cfg := by rfl
@[simp] theorem takeEvent_eng : s.takeEvent.eng = s.eng := by rfl
@[simp] theorem takeEvent_cmdl : s.takeEvent.cmdl = s.cmdl := by rfl
@[simp] theorem takeEvent_ie : s.takeEvent.ie = s.ie := by rfl
@[simp] theorem takeEvent_done : s.takeEvent.done = s.done := by rfl
@[simp] theorem takeEvent_err : s.takeEvent.err = s.err := by rfl
@[simp] theorem takeEvent_errcode : s.takeEvent.errcode = s.errcode := by rfl
@[simp] theorem takeEvent_nwords : s.takeEvent.nwords = s.nwords := by rfl
@[simp] theorem takeEvent_nbytes : s.takeEvent.nbytes = s.nbytes := by rfl
@[simp] theorem takeEvent_key : s.takeEvent.key = s.key := by rfl
@[simp] theorem takeEvent_bbuf : s.takeEvent.bbuf = s.bbuf := by rfl
@[simp] theorem takeEvent_wbuf : s.takeEvent.wbuf = s.wbuf := by rfl
@[simp] theorem takeEvent_draw : s.takeEvent.draw = s.draw := by rfl
@[simp] theorem takeEvent_inReset : s.takeEvent.inReset = s.inReset := by rfl
@[simp] theorem takeEvent_inbox : s.takeEvent.inbox = s.inbox.tail := by rfl
@[simp] theorem takeEvent_resp : s.takeEvent.resp = none := by rfl
end takeEvent

section holdReset
variable (s : State)
@[simp] theorem holdReset_cfg : s.holdReset.cfg = s.cfg := by rfl
@[simp] theorem holdReset_eng : s.holdReset.eng = .idle := by rfl
@[simp] theorem holdReset_cmdl : s.holdReset.cmdl = 0 := by rfl
@[simp] theorem holdReset_ie : s.holdReset.ie = false := by rfl
@[simp] theorem holdReset_done : s.holdReset.done = false := by rfl
@[simp] theorem holdReset_err : s.holdReset.err = false := by rfl
@[simp] theorem holdReset_errcode : s.holdReset.errcode = 0 := by rfl
@[simp] theorem holdReset_nwords : s.holdReset.nwords = 0 := by rfl
@[simp] theorem holdReset_nbytes : s.holdReset.nbytes = 0 := by rfl
@[simp] theorem holdReset_key : s.holdReset.key = ⟨0, 0, 0, 0⟩ := by rfl
@[simp] theorem holdReset_bbuf : s.holdReset.bbuf = [] := by rfl
@[simp] theorem holdReset_wbuf : s.holdReset.wbuf = [] := by rfl
@[simp] theorem holdReset_draw : s.holdReset.draw = s.draw + 1 := by rfl
@[simp] theorem holdReset_inReset : s.holdReset.inReset = true := by rfl
@[simp] theorem holdReset_inbox : s.holdReset.inbox = s.inbox := by rfl
@[simp] theorem holdReset_resp : s.holdReset.resp = none := by rfl
end holdReset

section releaseReset
variable (s : State)
@[simp] theorem releaseReset_cfg : s.releaseReset.cfg = s.cfg := by rfl
@[simp] theorem releaseReset_eng : s.releaseReset.eng = s.eng := by rfl
@[simp] theorem releaseReset_cmdl : s.releaseReset.cmdl = s.cmdl := by rfl
@[simp] theorem releaseReset_ie : s.releaseReset.ie = s.ie := by rfl
@[simp] theorem releaseReset_done : s.releaseReset.done = s.done := by rfl
@[simp] theorem releaseReset_err : s.releaseReset.err = s.err := by rfl
@[simp] theorem releaseReset_errcode : s.releaseReset.errcode = s.errcode := by rfl
@[simp] theorem releaseReset_nwords : s.releaseReset.nwords = s.nwords := by rfl
@[simp] theorem releaseReset_nbytes : s.releaseReset.nbytes = s.nbytes := by rfl
@[simp] theorem releaseReset_key : s.releaseReset.key = s.key := by rfl
@[simp] theorem releaseReset_bbuf : s.releaseReset.bbuf = s.bbuf := by rfl
@[simp] theorem releaseReset_wbuf : s.releaseReset.wbuf = s.wbuf := by rfl
@[simp] theorem releaseReset_draw : s.releaseReset.draw = s.draw := by rfl
@[simp] theorem releaseReset_inReset : s.releaseReset.inReset = false := by rfl
@[simp] theorem releaseReset_inbox : s.releaseReset.inbox = s.inbox := by rfl
@[simp] theorem releaseReset_resp : s.releaseReset.resp = s.resp := by rfl
end releaseReset

section raise
variable (s : State) (e : CmdError)
@[simp] theorem raise_cfg : (s.raise e).cfg = s.cfg := by rfl
@[simp] theorem raise_eng : (s.raise e).eng = s.eng := by rfl
@[simp] theorem raise_cmdl : (s.raise e).cmdl = s.cmdl := by rfl
@[simp] theorem raise_ie : (s.raise e).ie = s.ie := by rfl
@[simp] theorem raise_done : (s.raise e).done = s.done := by rfl
@[simp] theorem raise_err : (s.raise e).err = true := by rfl
@[simp] theorem raise_errcode : (s.raise e).errcode = e.code := by rfl
@[simp] theorem raise_nwords : (s.raise e).nwords = s.nwords := by rfl
@[simp] theorem raise_nbytes : (s.raise e).nbytes = s.nbytes := by rfl
@[simp] theorem raise_key : (s.raise e).key = s.key := by rfl
@[simp] theorem raise_bbuf : (s.raise e).bbuf = s.bbuf := by rfl
@[simp] theorem raise_wbuf : (s.raise e).wbuf = s.wbuf := by rfl
@[simp] theorem raise_draw : (s.raise e).draw = s.draw := by rfl
@[simp] theorem raise_inReset : (s.raise e).inReset = s.inReset := by rfl
@[simp] theorem raise_inbox : (s.raise e).inbox = s.inbox := by rfl
@[simp] theorem raise_resp : (s.raise e).resp = s.resp := by rfl
end raise

section finish
variable (s : State)
@[simp] theorem finish_cfg : s.finish.cfg = s.cfg := by rfl
@[simp] theorem finish_eng : s.finish.eng = .idle := by rfl
@[simp] theorem finish_cmdl : s.finish.cmdl = s.cmdl := by rfl
@[simp] theorem finish_ie : s.finish.ie = s.ie := by rfl
@[simp] theorem finish_done : s.finish.done = true := by rfl
@[simp] theorem finish_err : s.finish.err = s.err := by rfl
@[simp] theorem finish_errcode : s.finish.errcode = s.errcode := by rfl
@[simp] theorem finish_nwords : s.finish.nwords = s.nwords := by rfl
@[simp] theorem finish_nbytes : s.finish.nbytes = s.nbytes := by rfl
@[simp] theorem finish_key : s.finish.key = s.key := by rfl
@[simp] theorem finish_bbuf : s.finish.bbuf = s.bbuf := by rfl
@[simp] theorem finish_wbuf : s.finish.wbuf = s.wbuf := by rfl
@[simp] theorem finish_draw : s.finish.draw = s.draw := by rfl
@[simp] theorem finish_inReset : s.finish.inReset = s.inReset := by rfl
@[simp] theorem finish_inbox : s.finish.inbox = s.inbox := by rfl
@[simp] theorem finish_resp : s.finish.resp = s.resp := by rfl
end finish

/-- A W1C write of STATUS touches no field but the report (10_state.md R20). -/
theorem writeStatus_eq (s : State) (v : Word) :
    s.writeStatus v =
      { s with
        done := if v.getLsbD 1 then false else s.done
        err := if v.getLsbD 2 then false else s.err
        errcode := if v.getLsbD 2 then 0 else s.errcode } := by
  unfold writeStatus
  cases v.getLsbD 1 <;> cases v.getLsbD 2 <;> rfl

end Sys2Proof.Machine.State
end

