-- ==== Sys2Proof/Laws/Memory.lean ====
section
/-! SUPPORT. The buffers' lists: what reads back after a write, that the canonical form and the capacity are kept, and
that equal contents are equal lists. -/

namespace Sys2Proof.Machine.Memory

variable {α : Type}

@[simp] theorem read_nil (i : Nat) : read ([] : List (Nat × α)) i = none := rfl

theorem read_write (m : List (Nat × α)) (i : Nat) (v : α) (j : Nat) :
    read (write m i v) j = if j = i then some v else read m j := by
  induction m with
  | nil => simp [write, read, eq_comm]
  | cons c rest ih =>
    obtain ⟨k, w⟩ := c
    by_cases hlt : i < k
    · by_cases h : j = i
      · simp [write, read, hlt, h]
      · simp [write, read, hlt, h, Ne.symm h]
    · by_cases hik : i = k
      · subst hik
        by_cases h : j = i
        · simp [write, read, h]
        · simp [write, read, h, Ne.symm h]
      · simp only [write, hlt, hik, if_false, read, ih]
        by_cases hkj : k = j
        · have : ¬ j = i := by omega
          simp [hkj, this]
        · simp [hkj]

@[simp] theorem read_write_same (m : List (Nat × α)) (i : Nat) (v : α) : read (write m i v) i = some v := by
  simp [read_write]

theorem read_write_ne (m : List (Nat × α)) {i j : Nat} (v : α) (h : j ≠ i) : read (write m i v) j = read m j := by
  simp [read_write, h]

theorem read_writeFrom (vs : List α) (m : List (Nat × α)) (i j : Nat) :
    read (writeFrom m i vs) j = if i ≤ j ∧ j < i + vs.length then vs[j - i]? else read m j := by
  induction vs generalizing m i with
  | nil =>
    rw [writeFrom, if_neg (by simp only [List.length_nil]; omega)]
  | cons v rest ih =>
    rw [writeFrom, ih, read_write]
    by_cases hj : j = i
    · subst hj
      simp
    · by_cases hr : i + 1 ≤ j ∧ j < i + 1 + rest.length
      · have h' : i ≤ j ∧ j < i + (v :: rest).length := by simp only [List.length_cons]; omega
        rw [if_pos hr, if_pos h']
        obtain ⟨d, rfl⟩ : ∃ d, j = i + 1 + d := ⟨j - (i + 1), by omega⟩
        have e1 : i + 1 + d - (i + 1) = d := by omega
        have e2 : i + 1 + d - i = d + 1 := by omega
        simp [e1, e2]
      · have h' : ¬ (i ≤ j ∧ j < i + (v :: rest).length) := by simp only [List.length_cons]; omega
        rw [if_neg hr, if_neg h', if_neg hj]

/-- A written index of a buffer either was listed or is the one written. -/
theorem mem_write (m : List (Nat × α)) (i : Nat) (v : α) {c : Nat × α} (h : c ∈ write m i v) :
    c.1 = i ∨ c ∈ m := by
  induction m with
  | nil => simp [write] at h; simp [h]
  | cons d rest ih =>
    obtain ⟨k, w⟩ := d
    simp only [write] at h
    split at h
    · rcases List.mem_cons.mp h with rfl | h
      · exact .inl rfl
      · exact .inr h
    · split at h
      · rcases List.mem_cons.mp h with rfl | h
        · exact .inl rfl
        · exact .inr (List.mem_cons_of_mem _ h)
      · rcases List.mem_cons.mp h with rfl | h
        · exact .inr (List.mem_cons_self ..)
        · exact (ih h).imp id (List.mem_cons_of_mem _)

theorem wf_nil : wf ([] : List (Nat × α)) := List.Pairwise.nil

theorem wf_cons {c : Nat × α} {m : List (Nat × α)} : wf (c :: m) ↔ (∀ d ∈ m, c.1 < d.1) ∧ wf m := by
  simp [wf, List.pairwise_cons]

theorem write_wf {m : List (Nat × α)} (h : wf m) (i : Nat) (v : α) : wf (write m i v) := by
  induction m with
  | nil => simp [write, wf]
  | cons c rest ih =>
    obtain ⟨k, w⟩ := c
    obtain ⟨hk, hrest⟩ := wf_cons.mp h
    simp only [write]
    split
    · rename_i hlt
      refine wf_cons.mpr ⟨fun d hd => ?_, h⟩
      rcases List.mem_cons.mp hd with rfl | hd
      · exact hlt
      · exact Nat.lt_trans hlt (hk d hd)
    · split
      · rename_i heq
        subst heq
        exact wf_cons.mpr ⟨hk, hrest⟩
      · refine wf_cons.mpr ⟨fun d hd => ?_, ih hrest⟩
        rcases mem_write rest i v hd with hd | hd
        · simp only [hd]; omega
        · exact hk d hd

theorem writeFrom_wf (vs : List α) {m : List (Nat × α)} (h : wf m) (i : Nat) : wf (writeFrom m i vs) := by
  induction vs generalizing m i with
  | nil => exact h
  | cons v rest ih => exact ih (write_wf h i v) (i + 1)

theorem below_nil (n : Nat) : below n ([] : List (Nat × α)) := fun _ h => absurd h (List.not_mem_nil)

theorem write_below {m : List (Nat × α)} {n i : Nat} (h : below n m) (hi : i < n) (v : α) :
    below n (write m i v) := by
  intro c hc
  rcases mem_write m i v hc with hc | hc
  · omega
  · exact h c hc

theorem writeFrom_below (vs : List α) {m : List (Nat × α)} {n i : Nat} (h : below n m) (hi : i + vs.length ≤ n) :
    below n (writeFrom m i vs) := by
  induction vs generalizing m i with
  | nil => exact h
  | cons v rest ih =>
    simp only [List.length_cons] at hi
    exact ih (write_below h (by omega) v) (by omega)

/-- In a list in canonical form an index below every listed one reads as nothing. -/
theorem read_eq_none_of_lt {m : List (Nat × α)} {i : Nat} (h : ∀ d ∈ m, i < d.1) : read m i = none := by
  induction m with
  | nil => rfl
  | cons c rest ih =>
    obtain ⟨k, w⟩ := c
    have hk : i < k := h (k, w) (List.mem_cons_self ..)
    have hne : ¬ k = i := by omega
    simp only [read, hne, if_false]
    exact ih fun d hd => h d (List.mem_cons_of_mem _ hd)

/-- Equal contents are equal data: two canonical lists that read alike everywhere are the same list. -/
theorem ext_of_wf {m m' : List (Nat × α)} (h : wf m) (h' : wf m') (he : ∀ i, read m i = read m' i) : m = m' := by
  induction m generalizing m' with
  | nil =>
    cases m' with
    | nil => rfl
    | cons c rest =>
      have := he c.1
      simp [read] at this
  | cons c rest ih =>
    obtain ⟨k, w⟩ := c
    obtain ⟨hk, hrest⟩ := wf_cons.mp h
    cases m' with
    | nil => have := he k; simp [read] at this
    | cons c' rest' =>
      obtain ⟨k', w'⟩ := c'
      obtain ⟨hk', hrest'⟩ := wf_cons.mp h'
      have hkk : k = k' := by
        rcases Nat.lt_trichotomy k k' with hlt | heq | hgt
        · have h1 := he k
          have hn : read ((k', w') :: rest') k = none :=
            read_eq_none_of_lt fun d hd => by
              rcases List.mem_cons.mp hd with rfl | hd
              · exact hlt
              · exact Nat.lt_trans hlt (hk' d hd)
          rw [hn] at h1; simp [read] at h1
        · exact heq
        · have h1 := he k'
          have hn : read ((k, w) :: rest) k' = none :=
            read_eq_none_of_lt fun d hd => by
              rcases List.mem_cons.mp hd with rfl | hd
              · exact hgt
              · exact Nat.lt_trans hgt (hk d hd)
          rw [hn] at h1; simp [read] at h1
      subst hkk
      have hw : w = w' := by have := he k; simpa [read] using this
      subst hw
      have hr : ∀ i, read rest i = read rest' i := by
        intro i
        by_cases hi : k = i
        · subst hi
          rw [read_eq_none_of_lt hk, read_eq_none_of_lt hk']
        · have := he i
          simpa [read, hi] using this
      rw [ih hrest hrest' hr]

end Sys2Proof.Machine.Memory

namespace Sys2Proof.Machine.State

/-- BBUF after a store: the stored bytes where they were stored, every other byte as before. -/
theorem bbufAt_storeBytes (s : State) (i : Nat) (bs : List Byte) (j : Nat) :
    (s.storeBytes i bs).bbufAt j = if i ≤ j ∧ j < i + bs.length then bs.getD (j - i) 0 else s.bbufAt j := by
  unfold bbufAt
  simp only [storeBytes_bbuf, storeBytes_draw, Memory.read_writeFrom]
  split
  · rename_i h
    have hlt : j - i < bs.length := by omega
    simp [List.getD_eq_getElem?_getD, List.getElem?_eq_getElem hlt]
  · rfl

/-- WBUF after a store. -/
theorem wbufAt_storeWords (s : State) (i : Nat) (ws : List Word) (j : Nat) :
    (s.storeWords i ws).wbufAt j = if i ≤ j ∧ j < i + ws.length then ws.getD (j - i) 0 else s.wbufAt j := by
  unfold wbufAt
  simp only [storeWords_wbuf, storeWords_draw, Memory.read_writeFrom]
  split
  · rename_i h
    have hlt : j - i < ws.length := by omega
    simp [List.getD_eq_getElem?_getD, List.getElem?_eq_getElem hlt]
  · rfl

/-- A buffer's reading depends on its list and its draw alone. -/
theorem bbufAt_congr {s t : State} (hb : t.bbuf = s.bbuf) (hd : t.draw = s.draw) (j : Nat) :
    t.bbufAt j = s.bbufAt j := by simp [bbufAt, hb, hd]

theorem wbufAt_congr {s t : State} (hb : t.wbuf = s.wbuf) (hd : t.draw = s.draw) (i : Nat) :
    t.wbufAt i = s.wbufAt i := by simp [wbufAt, hb, hd]

@[simp] theorem length_bytes (s : State) (L : Nat) : (s.bytes L).length = L := by simp [bytes]

@[simp] theorem length_block (s : State) (n : Nat) : (s.block n).length = n := by simp [block]

theorem getD_bytes (s : State) (L j : Nat) : (s.bytes L).getD j 0 = if j < L then s.bbufAt j else 0 := by
  by_cases h : j < L <;> simp [bytes, List.getD_eq_getElem?_getD, h]

theorem getD_block (s : State) (n i : Nat) : (s.block n).getD i 0 = if i < n then s.wbufAt i else 0 := by
  by_cases h : i < n <;> simp [block, List.getD_eq_getElem?_getD, h]

end Sys2Proof.Machine.State
end

