-- ==== Sys2Proof/Laws/Ops.lean ====
section
/-! SUPPORT. What a completion step can do, said once for all commands: `exec_eq`, and the frame of every command's
effect. -/

namespace Sys2Proof.Machine

/-- The effect a command's completion step applies when no check fails (60_exceptions.md R89). -/
def effectOf (i : Instr) : State → State :=
  match i with
  | .pack => packEffect
  | .unpack => unpackEffect
  | .keyload => keyloadEffect
  | .encrypt => encryptEffect
  | .decrypt => decryptEffect
  | _ => id

theorem exec_eq (i : Instr) (s : State) : exec i s = .next (complete (check i s) (effectOf i) s) := by
  cases i <;> rfl

theorem complete_none (f : State → State) (s : State) : complete none f s = (f s).finish := rfl

theorem complete_some (e : CmdError) (f : State → State) (s : State) :
    complete (some e) f s = s.failedWith e.code := rfl

@[simp] theorem complete_eng (c : Option CmdError) (f : State → State) (s : State) : (complete c f s).eng = .idle := by
  cases c <;> rfl

@[simp] theorem complete_done (c : Option CmdError) (f : State → State) (s : State) : (complete c f s).done = true := by
  cases c <;> rfl

/-- No effect touches the status bits, the engine, the configuration, CTRL, the draw or the port. -/
theorem effectOf_frame (i : Instr) (s : State) :
    s.sameRest (effectOf i s) ∧ (effectOf i s).eng = s.eng ∧ (effectOf i s).done = s.done ∧
      (effectOf i s).err = s.err ∧ (effectOf i s).errcode = s.errcode := by
  cases i <;>
    simp [effectOf, packEffect, unpackEffect, keyloadEffect, encryptEffect, decryptEffect, State.sameRest]

theorem complete_sameRest (i : Instr) (c : Option CmdError) (s : State) :
    s.sameRest (complete c (effectOf i) s) := by
  cases c with
  | none => exact (effectOf_frame i s).1
  | some e => exact ⟨rfl, rfl, rfl, rfl, rfl, rfl, rfl⟩

/-- The report of a completion step. -/
theorem complete_report (i : Instr) (c : Option CmdError) (s : State) :
    (complete c (effectOf i) s).err = (c.isSome || s.err) ∧
      (complete c (effectOf i) s).errcode = (c.map CmdError.code).getD s.errcode := by
  cases c with
  | none => simp [complete_none, effectOf_frame i s]
  | some e => exact ⟨rfl, rfl⟩

theorem code_ne_zero (e : CmdError) : e.code ≠ 0#4 := by cases e <;> decide

theorem code_le_three (e : CmdError) : e.code.toNat ≤ 3 := by cases e <;> decide

/-- No check reads anything but the lengths and the capacity (R92). -/
theorem check_congr {s t : State} (hc : t.cfg = s.cfg) (hn : t.nwords = s.nwords) (hb : t.nbytes = s.nbytes)
    (i : Instr) : check i t = check i s := by
  cases i <;> simp [check, State.byteLength, State.blockCount, State.bbufSize, hc, hn, hb]

end Sys2Proof.Machine
end

