-- ==== Sys2Proof/Laws/Cipher.lean ====
section
/-! SUPPORT. The cipher's steps: the block keeps its length, which key word a position uses, what one step writes and carries, and the sums of the
decrypt loop. -/

namespace Sys2Proof.Machine

theorem effectOf_encrypt : effectOf .encrypt = encryptEffect := rfl

theorem effectOf_decrypt : effectOf .decrypt = decryptEffect := rfl

/-- The word an encryption step writes is the word it carries on. -/
theorem encryptStep_fst (k : Key) (sum : Word) (n : Nat) (st : Pass) (p : Nat) :
    (encryptStep k sum n st p).1 = st.1.set p (encryptStep k sum n st p).2 := by rfl

theorem decryptStep_fst (k : Key) (sum : Word) (n : Nat) (st : Pass) (p : Nat) :
    (decryptStep k sum n st p).1 = st.1.set p (decryptStep k sum n st p).2 := by rfl

@[simp] theorem length_encryptStep (k : Key) (sum : Word) (n : Nat) (st : Pass) (p : Nat) :
    (encryptStep k sum n st p).1.length = st.1.length := by
  simp [encryptStep_fst]

@[simp] theorem length_decryptStep (k : Key) (sum : Word) (n : Nat) (st : Pass) (p : Nat) :
    (decryptStep k sum n st p).1.length = st.1.length := by
  simp [decryptStep_fst]

/-- A fold of steps that each keep the block's length keeps it. -/
theorem length_foldl {f : Pass → Nat → Pass} (hf : ∀ st p, (f st p).1.length = st.1.length) (ps : List Nat)
    (st : Pass) : (ps.foldl f st).1.length = st.1.length := by
  induction ps generalizing st with
  | nil => rfl
  | cons p ps ih => rw [List.foldl_cons, ih, hf]

@[simp] theorem length_encryptRound (k : Key) (sum : Word) (n : Nat) (st : Pass) :
    (encryptRound k sum n st).1.length = st.1.length :=
  length_foldl (length_encryptStep k sum n) _ st

@[simp] theorem length_decryptRound (k : Key) (sum : Word) (n : Nat) (st : Pass) :
    (decryptRound k sum n st).1.length = st.1.length :=
  length_foldl (length_decryptStep k sum n) _ st

@[simp] theorem length_encryptRounds (k : Key) (n r : Nat) (sum : Word) (st : Pass) :
    (encryptRounds k n r sum st).length = st.1.length := by
  induction r generalizing sum st with
  | zero => rfl
  | succ r ih => rw [encryptRounds, ih, length_encryptRound]

@[simp] theorem length_decryptWhile (k : Key) (n fuel : Nat) (sum : Word) (st : Pass) :
    (decryptWhile k n fuel sum st).length = st.1.length := by
  induction fuel generalizing sum st with
  | zero => rfl
  | succ fuel ih =>
    rw [decryptWhile]
    split
    · rfl
    · rw [ih, length_decryptRound]

@[simp] theorem length_teaEncrypt (k : Key) (v : List Word) : (teaEncrypt k v).length = v.length := by
  rw [teaEncrypt, length_encryptRounds]

@[simp] theorem length_teaDecrypt (k : Key) (v : List Word) : (teaDecrypt k v).length = v.length := by
  rw [teaDecrypt, length_decryptWhile]

/-- The key word at position `p` of a round with selector `e` (R76), by its number. -/
theorem get_kidx (k : Key) (p : Nat) (e : BitVec 2) :
    k.get (kidx p e) = [k.k0, k.k1, k.k2, k.k3].getD ((p % 4) ^^^ e.toNat) 0 := by
  have h : (kidx p e).toNat = (p % 4) ^^^ e.toNat := by simp [kidx]
  rw [← h]
  generalize kidx p e = i
  have hi : i = 0 ∨ i = 1 ∨ i = 2 ∨ i = 3 := by revert i; decide
  rcases hi with rfl | rfl | rfl | rfl <;> rfl

/-- A round's selector (R75), by its number. -/
theorem selector_toNat (sum : Word) : (selector sum).toNat = sum.toNat / 4 % 4 := by
  simp [selector, Nat.shiftRight_eq_div_pow]

/-- "for `1 <= k <= 32` it is never 0" (R80): the decrypt loop's sums before its last test. -/
theorem sum_ne_zero {r : Nat} (h1 : 1 ≤ r) (h2 : r ≤ 32) : BitVec.ofNat 32 r * DELTA ≠ 0#32 := by
  have h : ∀ i : Fin 32, BitVec.ofNat 32 (i.val + 1) * DELTA ≠ 0#32 := by decide
  have := h ⟨r - 1, by omega⟩
  rwa [show r - 1 + 1 = r by omega] at this

/-- One pass lowers the sum by one DELTA. -/
theorem sum_pred {r : Nat} (h : 1 ≤ r) :
    BitVec.ofNat 32 r * DELTA - DELTA = BitVec.ofNat 32 (r - 1) * DELTA := by
  obtain ⟨q, rfl⟩ : ∃ q, r = q + 1 := ⟨r - 1, by omega⟩
  have h1 : BitVec.ofNat 32 (q + 1) = BitVec.ofNat 32 q + 1#32 := BitVec.ofNat_add ..
  rw [Nat.add_sub_cancel, h1, BitVec.add_mul, BitVec.one_mul, BitVec.add_sub_cancel]

end Sys2Proof.Machine
end

