-- ==== Sys2Proof/Laws/HostPort.lean ====
section
/-! SUPPORT. What a host transaction can do, said once. -/

namespace Sys2Proof.Machine

theorem offsetOf_base (cfg : Config) {off : Nat} (h : off < 0x1000) : offsetOf cfg (cfg.base + off) = some off := by
  unfold offsetOf
  rw [if_pos (by omega)]
  congr 1
  omega

theorem offsetOf_base_zero (cfg : Config) : offsetOf cfg cfg.base = some 0 := offsetOf_base cfg (off := 0) (by omega)

theorem offsetOf_lt {cfg : Config} {addr off : Nat} (h : offsetOf cfg addr = some off) :
    off < 0x1000 ∧ addr = cfg.base + off := by
  unfold offsetOf at h
  split at h
  · injection h with h; omega
  · cases h

theorem offsetOf_outside {cfg : Config} {addr : Nat} (h : addr < cfg.base ∨ cfg.base + 0x1000 ≤ addr) :
    offsetOf cfg addr = none := by
  unfold offsetOf
  exact if_neg (by omega)

/-- A legal transaction names something in the map (R39 to R43), so `permitted` never drops one. -/
theorem legal_target {nmax off : Nat} {size : Size} {eng : Engine} (h : legal nmax off size eng = true) :
    ∃ t, target nmax off size = some t := by
  cases size
  · simp only [legal, Bool.and_eq_true, decide_eq_true_eq] at h
    exact ⟨_, if_pos h.1⟩
  · cases h
  · simp only [legal] at h
    split at h
    · rename_i h4
      simp only [target, h4, if_true]
      cases hr : regAt off with
      | some r => exact ⟨_, rfl⟩
      | none =>
        split at h
        · rename_i hm
          simp only [List.mem_cons, List.not_mem_nil, or_false] at hm
          rcases hm with rfl | rfl | rfl | rfl <;> cases hr
        · split at h
          · rename_i hm
            simp only [List.mem_cons, List.not_mem_nil, or_false] at hm
            rcases hm with rfl | rfl | rfl | rfl | rfl | rfl | rfl <;> cases hr
          · split at h
            · rename_i hw
              exact ⟨_, if_pos hw⟩
            · cases h
    · cases h

/-- A permitted transaction of a busy device is a 4-byte one of ID, CAP, CTRL or STATUS (20_memory.md R44). -/
theorem permitted_busy {s : State} {off : Nat} {size : Size} {t : Target} (hb : s.eng = .busy)
    (h : permitted s off size = some t) : t = .reg .id ∨ t = .reg .cap ∨ t = .reg .ctrl ∨ t = .reg .status := by
  have hne : (Engine.busy == Engine.idle) = false := rfl
  unfold permitted at h
  rw [hb] at h
  split at h
  · rename_i hl
    cases size <;> simp [legal, hne] at hl
    rcases hl with ⟨_, rfl | rfl | rfl | rfl⟩ <;> simp [target, regAt] at h <;> simp [← h]
  · cases h

/-- An element named in a buffer's window lies inside the buffer (R41, R42). -/
theorem permitted_bound {s : State} {off : Nat} {size : Size} {t : Target} (h : permitted s off size = some t) :
    (∀ i, t = .bbuf i → i < 4 * s.cfg.nmax) ∧ (∀ i, t = .wbuf i → i < s.cfg.nmax) := by
  unfold permitted at h
  split at h
  · cases size
    · simp only [target] at h
      split at h
      · injection h with h; subst h
        exact ⟨fun i hi => (by injection hi; omega), fun i hi => (by cases hi)⟩
      · cases h
    · cases h
    · simp only [target] at h
      split at h
      · split at h
        · injection h with h; subst h
          exact ⟨fun i hi => (by cases hi), fun i hi => (by cases hi)⟩
        · split at h
          · injection h with h; subst h
            exact ⟨fun i hi => (by cases hi), fun i hi => (by injection hi; omega)⟩
          · cases h
      · cases h
  · cases h

/-- What a host transaction leaves: the state it found with an answer, or without one, or (a permitted write) the state
after that write with an answer. -/
theorem hostAccess_cases (s : State) (t : Transaction) :
    hostAccess s t = s ∨ (∃ r, hostAccess s t = s.respond r) ∨
      ∃ addr size v off tgt, t = .write addr size v ∧ offsetOf s.cfg addr = some off ∧
        permitted s off size = some tgt ∧ hostAccess s t = (writeTarget s tgt v).respond (.okay none) := by
  cases t with
  | read addr size =>
    simp only [hostAccess]
    cases offsetOf s.cfg addr with
    | none => exact .inl rfl
    | some off =>
      refine .inr (.inl ?_)
      simp only [memRead]
      cases permitted s off size with
      | none => exact ⟨_, rfl⟩
      | some tgt => exact ⟨_, rfl⟩
  | write addr size v =>
    simp only [hostAccess]
    cases ho : offsetOf s.cfg addr with
    | none => exact .inl rfl
    | some off =>
      simp only [memWrite]
      cases hp : permitted s off size with
      | none => exact .inr (.inl ⟨_, rfl⟩)
      | some tgt => exact .inr (.inr ⟨addr, size, v, off, tgt, rfl, ho, hp, rfl⟩)

/-- A write to a register or a buffer touches neither the configuration, nor the draw, nor the port's inputs. -/
theorem writeTarget_frame (s : State) (t : Target) (v : Word) :
    (writeTarget s t v).cfg = s.cfg ∧ (writeTarget s t v).draw = s.draw ∧ (writeTarget s t v).inReset = s.inReset ∧
      (writeTarget s t v).inbox = s.inbox := by
  cases t with
  | bbuf i => simp [writeTarget]
  | wbuf i => simp [writeTarget]
  | reg r => cases r <;> simp [writeTarget, writeReg, State.writeStatus_eq]

theorem hostAccess_frame (s : State) (t : Transaction) :
    (hostAccess s t).cfg = s.cfg ∧ (hostAccess s t).draw = s.draw ∧ (hostAccess s t).inReset = s.inReset ∧
      (hostAccess s t).inbox = s.inbox := by
  rcases hostAccess_cases s t with h | ⟨r, h⟩ | ⟨_, _, v, _, tgt, _, _, _, h⟩
  · simp [h]
  · simp [h]
  · simpa [h] using writeTarget_frame s tgt v

/-- While a command is in progress a transaction changes CTRL.IE and the three report bits at most, and a report bit
only to 0; a read changes nothing (R44, 10_state.md R20). -/
theorem hostAccess_busy {s : State} (hb : s.eng = .busy) (t : Transaction) :
    ∃ ie done err errcode resp,
      hostAccess s t = { s with ie := ie, done := done, err := err, errcode := errcode, resp := resp } ∧
        (s.done = false → done = false) ∧ (s.err = false → err = false) ∧ (s.errcode = 0 → errcode = 0) := by
  rcases hostAccess_cases s t with h | ⟨r, h⟩ | ⟨_, _, v, _, tgt, _, _, hp, h⟩
  · exact ⟨_, _, _, _, _, h, id, id, id⟩
  · exact ⟨_, _, _, _, _, h, id, id, id⟩
  · rcases permitted_busy hb hp with rfl | rfl | rfl | rfl
    · exact ⟨_, _, _, _, _, h, id, id, id⟩
    · exact ⟨_, _, _, _, _, h, id, id, id⟩
    · exact ⟨_, _, _, _, _, h, id, id, id⟩
    · refine ⟨s.ie, _, _, _, _, h.trans (by simp only [writeTarget, writeReg, State.writeStatus_eq]; rfl), ?_, ?_, ?_⟩ <;>
        intro h' <;> simp [h']

end Sys2Proof.Machine
end

