-- ==== Sys2Proof/Laws/Packer.lean ====
section
/-! SUPPORT. The packing functions, element by element: lengths, and which byte stands in which bits. -/

namespace Sys2Proof.Machine

theorem effectOf_pack : effectOf .pack = packEffect := rfl

theorem effectOf_unpack : effectOf .unpack = unpackEffect := rfl

theorem effectOf_keyload : effectOf .keyload = keyloadEffect := rfl

@[simp] theorem length_pack (b : List Byte) : (pack b).length = (b.length + 3) / 4 := by simp [pack, ceilDiv]

theorem getD_pack (b : List Byte) (i : Nat) :
    (pack b).getD i 0 = if i < (b.length + 3) / 4 then packWord b i else 0 := by
  by_cases h : i < (b.length + 3) / 4 <;> simp [pack, ceilDiv, List.getD_eq_getElem?_getD, h]

/-- A word's byte lane `j` of 4, as the packer cuts it. -/
theorem byteLane_shift (w : Word) (k : Nat) : byteLane (w >>> k) = w.extractLsb' k 8 := by
  apply BitVec.eq_of_getLsbD_eq
  intro i hi
  simp [byteLane, BitVec.getLsbD_ushiftRight, hi]

theorem byteLane_zero (w : Word) : byteLane w = w.extractLsb' 0 8 := by simpa using byteLane_shift w 0

/-- Byte `4*i + j` stands in bits `8*j + 7 .. 8*j` of word `i` (20_memory.md R46). -/
theorem packWord_byte (b : List Byte) (i : Nat) {j : Nat} (hj : j < 4) :
    (packWord b i).extractLsb' (8 * j) 8 = b.getD (4 * i + j) 0 := by
  simp only [packWord, zext32]
  have hj' : j = 0 ∨ j = 1 ∨ j = 2 ∨ j = 3 := by omega
  rcases hj' with rfl | rfl | rfl | rfl
  all_goals
    try rw [Nat.add_zero]
    generalize b.getD (4 * i) 0 = b0
    generalize b.getD (4 * i + 1) 0 = b1
    generalize b.getD (4 * i + 2) 0 = b2
    generalize b.getD (4 * i + 3) 0 = b3
    apply BitVec.eq_of_getLsbD_eq
    intro k hk
    simp only [BitVec.getLsbD_extractLsb', BitVec.getLsbD_or, BitVec.getLsbD_setWidth, BitVec.getLsbD_shiftLeft]
    have hk' : k = 0 ∨ k = 1 ∨ k = 2 ∨ k = 3 ∨ k = 4 ∨ k = 5 ∨ k = 6 ∨ k = 7 := by omega
    rcases hk' with rfl | rfl | rfl | rfl | rfl | rfl | rfl | rfl <;> simp

/-- Two words with the same four bytes are the same word. -/
theorem word_ext {u w : Word} (h : ∀ j, j < 4 → u.extractLsb' (8 * j) 8 = w.extractLsb' (8 * j) 8) : u = w := by
  apply BitVec.eq_of_getLsbD_eq
  intro i hi
  have hk := congrArg (fun x => x.getLsbD (i % 8)) (h (i / 8) (by omega))
  have hm : i % 8 < 8 := Nat.mod_lt _ (by omega)
  have hi' : 8 * (i / 8) + i % 8 = i := by omega
  simpa [BitVec.getLsbD_extractLsb', hm, hi'] using hk

/-- A word's number is the sum of its bytes' (40_word_packer.md R72). -/
theorem word_toNat (w : Word) :
    w.toNat = (w.extractLsb' 0 8).toNat + (w.extractLsb' 8 8).toNat * 256 + (w.extractLsb' 16 8).toNat * 65536 +
      (w.extractLsb' 24 8).toNat * 16777216 := by
  simp only [BitVec.extractLsb'_toNat, Nat.shiftRight_eq_div_pow]
  have := w.isLt
  omega

@[simp] theorem length_unpack (w : List Word) : (unpack w).length = 4 * w.length := by
  induction w with
  | nil => rfl
  | cons a w ih =>
    have h : unpack (a :: w) = wordBytes a ++ unpack w := rfl
    rw [h, List.length_append, ih]
    simp [wordBytes]
    omega

theorem getD_unpack (w : List Word) {i j : Nat} (hi : i < w.length) (hj : j < 4) :
    (unpack w).getD (4 * i + j) 0 = (w.getD i 0).extractLsb' (8 * j) 8 := by
  induction w generalizing i with
  | nil => simp at hi
  | cons a w ih =>
    have h : unpack (a :: w) = wordBytes a ++ unpack w := rfl
    cases i with
    | zero =>
      have hj' : j = 0 ∨ j = 1 ∨ j = 2 ∨ j = 3 := by omega
      rcases hj' with rfl | rfl | rfl | rfl
      · exact byteLane_zero a
      · exact byteLane_shift a 8
      · exact byteLane_shift a 16
      · exact byteLane_shift a 24
    | succ i =>
      have h4 : 4 * (i + 1) + j = (4 * i + j) + 4 := by omega
      have := ih (by simpa using hi)
      rw [h4, h]
      simpa [wordBytes] using this

end Sys2Proof.Machine
end

