-- ==== Sys2Proof/Laws/PerInstr.lean ====
section
/-! SUPPORT. The fields of every command's word (30_encoding.md R57, R58), one lemma for each constructor. -/

namespace Sys2Proof.Laws.Fields

/-- The field OP of each command (R58). -/
def op (i : Instr) : BitVec 4 :=
  match i with
  | .pack => 0x1
  | .unpack => 0x2
  | .keyload => 0x3
  | .encrypt => 0x4
  | .decrypt => 0x5
  | .reservedOp0 => 0x0
  | .reservedOp6 => 0x6
  | .reservedOp7 => 0x7
  | .reservedOp8 => 0x8
  | .reservedOp9 => 0x9
  | .reservedOpA => 0xA
  | .reservedOpB => 0xB
  | .reservedOpC => 0xC
  | .reservedOpD => 0xD
  | .reservedOpE => 0xE
  | .reservedOpF => 0xF
  | .reservedRsv op _ => op

/-- The field RSV of each command: 0 for every word of the table but the row of the reserved field (R58). -/
def rsv (i : Instr) : BitVec 28 :=
  match i with
  | .reservedRsv _ rsv => rsv
  | _ => 0

/-- The word of a command holds OP in bits 3:0 and RSV in bits 31:4, and nothing else (R57). -/
def Statement (i : Instr) : Prop :=
  opField (encode i) = op i ∧ rsvField (encode i) = rsv i ∧ encode i = rsv i ++ op i

theorem pack : Statement .pack := by unfold Statement; decide

theorem unpack : Statement .unpack := by unfold Statement; decide

theorem keyload : Statement .keyload := by unfold Statement; decide

theorem encrypt : Statement .encrypt := by unfold Statement; decide

theorem decrypt : Statement .decrypt := by unfold Statement; decide

theorem reservedOp0 : Statement .reservedOp0 := by unfold Statement; decide

theorem reservedOp6 : Statement .reservedOp6 := by unfold Statement; decide

theorem reservedOp7 : Statement .reservedOp7 := by unfold Statement; decide

theorem reservedOp8 : Statement .reservedOp8 := by unfold Statement; decide

theorem reservedOp9 : Statement .reservedOp9 := by unfold Statement; decide

theorem reservedOpA : Statement .reservedOpA := by unfold Statement; decide

theorem reservedOpB : Statement .reservedOpB := by unfold Statement; decide

theorem reservedOpC : Statement .reservedOpC := by unfold Statement; decide

theorem reservedOpD : Statement .reservedOpD := by unfold Statement; decide

theorem reservedOpE : Statement .reservedOpE := by unfold Statement; decide

theorem reservedOpF : Statement .reservedOpF := by unfold Statement; decide

theorem reservedRsv (op : BitVec 4) (rsv : BitVec 28) : Statement (.reservedRsv op rsv) := by
  have bit : ∀ j, (encode (.reservedRsv op rsv)).getLsbD j = if j < 4 then op.getLsbD j else rsv.getLsbD (j - 4) :=
    fun j => (BitVec.getLsbD_append (x := rsv) (y := op) (i := j)).trans (by by_cases h : j < 4 <;> simp [h])
  refine ⟨?_, ?_, rfl⟩
  · apply BitVec.eq_of_getLsbD_eq
    intro j hj
    simp [opField, bit, hj, Fields.op]
  · apply BitVec.eq_of_getLsbD_eq
    intro j hj
    simp [rsvField, bit, hj, Fields.rsv]

end Sys2Proof.Laws.Fields
end

