-- ==== Sys2Proof/Laws/Step.lean ====
section
/-! SUPPORT. What a step can do, said once: which of the six things happens, by the inbox, the reset pin and ENG. -/

namespace Sys2Proof.Machine

theorem engineTurn_run {s : State} (hr : s.inReset = false) (hb : s.eng = .busy) :
    engineTurn s = exec (decode s.cmdl) s := by
  simp [engineTurn, hr, hb]

theorem engineTurn_wait {s : State} (h : s.inReset = true ∨ s.eng = .idle) : engineTurn s = .next s := by
  unfold engineTurn
  split
  · rfl
  · rcases h with h | h
    · contradiction
    · rw [h]

theorem step_host {s : State} {t : Transaction} {rest : List Event} (hr : s.inReset = false)
    (h : s.inbox = .host t :: rest) : step s = .next (hostAccess { s with inbox := rest, resp := none } t) := by
  simp [step, h, handle, State.takeEvent, hr]

theorem step_host_held {s : State} {t : Transaction} {rest : List Event} (hr : s.inReset = true)
    (h : s.inbox = .host t :: rest) : step s = .next { s with inbox := rest, resp := none } := by
  simp [step, h, handle, State.takeEvent, hr]

theorem step_assertReset {s : State} {rest : List Event} (h : s.inbox = .assertReset :: rest) :
    step s = .next { State.resetWith s.cfg (s.draw + 1) with inReset := true, inbox := rest } := by
  simp [step, h, handle, State.holdReset]

theorem step_releaseReset {s : State} {rest : List Event} (h : s.inbox = .releaseReset :: rest) :
    step s = .next { s with inReset := false, inbox := rest, resp := none } := by
  simp [step, h, handle, State.takeEvent, State.releaseReset]

/-- It is the engine's turn: by the inbox, or because nothing more is to come. -/
abbrev engineIsNext (s : State) : Prop := s.inbox = [] ∨ ∃ rest, s.inbox = .engine :: rest

theorem step_engineIsNext {s : State} (h : engineIsNext s) : step s = engineTurn s.takeEvent := by
  rcases h with h | ⟨rest, h⟩ <;> simp [step, h, handle]

/-- The step, by cases. -/
theorem step_cases (s : State) :
    (engineIsNext s ∧ s.inReset = false ∧ s.eng = .busy ∧ step s = exec (decode s.cmdl) s.takeEvent) ∨
    (engineIsNext s ∧ (s.inReset = true ∨ s.eng = .idle) ∧ step s = .next s.takeEvent) ∨
    (∃ t rest, s.inbox = .host t :: rest ∧ s.inReset = false ∧ step s = .next (hostAccess s.takeEvent t)) ∨
    (∃ t rest, s.inbox = .host t :: rest ∧ s.inReset = true ∧ step s = .next s.takeEvent) ∨
    (∃ rest, s.inbox = .assertReset :: rest ∧ step s = .next s.takeEvent.holdReset) ∨
    (∃ rest, s.inbox = .releaseReset :: rest ∧ step s = .next s.takeEvent.releaseReset) := by
  have turn : engineIsNext s →
      (s.inReset = false ∧ s.eng = .busy ∧ step s = exec (decode s.cmdl) s.takeEvent) ∨
        ((s.inReset = true ∨ s.eng = .idle) ∧ step s = .next s.takeEvent) := by
    intro h
    by_cases hw : s.inReset = true ∨ s.eng = .idle
    · exact .inr ⟨hw, (step_engineIsNext h).trans (engineTurn_wait (by simpa using hw))⟩
    · have hr : s.inReset = false := by cases hr : s.inReset <;> simp_all
      have hb : s.eng = .busy := by cases hb : s.eng <;> simp_all
      exact .inl ⟨hr, hb, (step_engineIsNext h).trans (engineTurn_run (by simpa using hr) (by simpa using hb))⟩
  cases hi : s.inbox with
  | nil => rcases turn (.inl hi) with h | h <;> simp [engineIsNext, hi, h]
  | cons e rest =>
    cases e with
    | engine => rcases turn (.inr ⟨rest, hi⟩) with h | h <;> simp [engineIsNext, hi, h]
    | host t => cases hr : s.inReset <;> simp [engineIsNext, hi, hr, step, handle]
    | assertReset => simp [engineIsNext, hi, step, handle]
    | releaseReset => simp [engineIsNext, hi, step, handle]

end Sys2Proof.Machine
end

