-- ==== Sys2Proof/Laws/Run.lean ====
section
/-! SUPPORT. Runs of several steps: the equations of `Host.Core.run` for this machine, and how two runs compose. -/

namespace Sys2Proof.Machine

theorem run_zero (s : State) : Host.Core.run core 0 s = .next s := rfl

theorem run_succ {s t : State} (h : step s = .next t) (k : Nat) :
    Host.Core.run core (k + 1) s = Host.Core.run core k t := by
  have h' : core.step s = .next t := h
  simp [Host.Core.run, h']

theorem run_one {s t : State} (h : step s = .next t) : Host.Core.run core 1 s = .next t := run_succ h 0

theorem run_add {s t : State} {j : Nat} (h : Host.Core.run core j s = .next t) (k : Nat) :
    Host.Core.run core (j + k) s = Host.Core.run core k t := by
  induction j generalizing s with
  | zero =>
    injection h with h
    rw [h, Nat.zero_add]
  | succ j ih =>
    rw [Nat.add_right_comm]
    cases hs : step s with
    | next u =>
      rw [run_succ hs] at h ⊢
      exact ih h
    | fault r => cases r
    | refused r =>
      have h' : core.step s = .refused r := hs
      simp [Host.Core.run, h'] at h

end Sys2Proof.Machine
end

