-- ==== Sys2Proof/Machine/HostProgram.lean ====
section
/-! DEFINITION. The host-program syntax (30_encoding.md R63, R64) and the host procedures around the device
(70_reset_and_hazards.md R108, R109, R112), as events for the inbox. The codecs are the host's (00_scope.md R6). -/

namespace Sys2Proof.Machine

/-- A line of a host program (R63). Offsets are from BASE. -/
inductive HostLine where
  | wr32 (off : Nat) (v : Word)
  | rd32 (off : Nat)
  | wr8 (off : Nat) (v : Byte)
  | rd8 (off : Nat)
deriving DecidableEq, Repr

namespace HostLine

/-- The transaction of a line (R63). -/
def transaction (base : Nat) (l : HostLine) : Transaction :=
  match l with
  | wr32 off v => .write (base + off) .four v
  | rd32 off => .read (base + off) .four
  | wr8 off v => .write (base + off) .one (zext32 v)
  | rd8 off => .read (base + off) .one

/-- `CMD m` (R64). -/
def cmd (i : Instr) : List HostLine := [wr32 0x010 (encode i)]

/-- `WAIT` (R64) in a run where the host reads STATUS `polls` times: "the number of reads is not fixed". -/
def wait (polls : Nat) : List HostLine := List.replicate polls (rd32 0x00C)

/-- `SETN n` (R64). -/
def setN (n : Word) : List HostLine := [wr32 0x014 n]

/-- `SETL L` (R64). -/
def setL (L : Word) : List HostLine := [wr32 0x018 L]

/-- `SETKEY k0, k1, k2, k3` (R64). -/
def setKey (k : Key) : List HostLine := [wr32 0x020 k.k0, wr32 0x024 k.k1, wr32 0x028 k.k2, wr32 0x02C k.k3]

/-- `WRBYTES i, b0 b1 ... bm` (R64). -/
def wrBytes (i : Nat) (bs : List Byte) : List HostLine := bs.mapIdx (fun j b => wr8 (0x400 + (i + j)) b)

/-- `WRWORDS i, w0 w1 ... wm` (R64). -/
def wrWords (i : Nat) (ws : List Word) : List HostLine := ws.mapIdx (fun j w => wr32 (0x800 + 4 * (i + j)) w)

/-- `ACK` (R64): clears DONE and ERR. -/
def ack : List HostLine := [wr32 0x00C 0x00000006]

/-- `IEN` (R64). -/
def ien : List HostLine := [wr32 0x008 0x00000001]

end HostLine

/-- The events of a program's lines, no engine turn among them. -/
def hostEvents (base : Nat) (ls : List HostLine) : List Event := ls.map (fun l => .host (l.transaction base))

/-- `RUN m` (R64) in a run where the host reads STATUS `polls` times before the completion step and once after it. -/
def runEvents (base polls : Nat) (i : Instr) : List Event :=
  hostEvents base (HostLine.cmd i ++ HostLine.wait polls) ++ .engine :: hostEvents base (HostLine.wait 1)

/-- The common start of R108 and R109: the key from the first 16 bytes of the password, then the message packed. -/
def loadEvents (base polls : Nat) (message password : List Byte) : List Event :=
  let Kb := password.take (min password.length 16)
  hostEvents base (HostLine.wrBytes 0 Kb ++ HostLine.setL (BitVec.ofNat 32 Kb.length)) ++ runEvents base polls .keyload ++
    (hostEvents base (HostLine.wrBytes 0 message ++ HostLine.setL (BitVec.ofNat 32 message.length)) ++
      runEvents base polls .pack)

/-- The reads of NBYTES and of the result bytes, `BBUF[0 .. NBYTES-1]`, after the UNPACK of `n` words. -/
def resultReads (n : Nat) : List HostLine := .rd32 0x018 :: (List.range (4 * n)).map (fun j => .rd8 (0x400 + j))

/-- `HostEncrypt` (R108) between the codecs: `message` and `password` are the encoded bytes. The host appends the zero
word of R111 when it reads NWORDS = 1, after a message of 1 to 4 bytes; empty input reaches no device (R110). -/
def hostEncryptEvents (base polls : Nat) (message password : List Byte) : List Event :=
  let N := ceilDiv message.length 4
  if message = [] then []
  else
    loadEvents base polls message password ++
      hostEvents base (.rd32 0x014 :: if N = 1 then HostLine.wrWords 1 [0] ++ HostLine.setN 2 else []) ++
      runEvents base polls .encrypt ++ runEvents base polls .unpack ++ hostEvents base (resultReads (max N 2))

/-- `HostDecrypt` (R109) between the codecs. -/
def hostDecryptEvents (base polls : Nat) (message password : List Byte) : List Event :=
  if message = [] then []
  else
    loadEvents base polls message password ++ runEvents base polls .decrypt ++ runEvents base polls .unpack ++
      hostEvents base (resultReads (ceilDiv message.length 4))

/-- The host's strip of "ALL trailing NUL bytes" (R112). -/
def stripTrailingNul (bs : List Byte) : List Byte := (bs.reverse.dropWhile (· == 0)).reverse

end Sys2Proof.Machine
end

