-- ==== Sys2Proof/Tests/Slice0.lean ====
section
/-! SUPPORT. Tests with the spec's own vectors (95_test_vectors.md, cited by their numbers), the words written out from
the encoding rules, and one witness for the hypotheses of each statement. -/

namespace Sys2Proof.Tests

open Sys2Proof Sys2Proof.Machine

/-! Helpers: small states, and what a step leaves. -/

/-- Consecutive elements of a buffer from index 0. -/
def cells {α : Type} (vs : List α) : List (Nat × α) := Memory.writeFrom [] 0 vs

/-- The device idle after reset, with these bytes and words in the buffers, these lengths and this key. -/
def idle (bs : List Byte) (ws : List Word) (nbytes nwords : BitVec 16) (key : Key) : State :=
  { State.reset with bbuf := cells bs, wbuf := cells ws, nbytes := nbytes, nwords := nwords, key := key }

/-- A command in progress. -/
def busy (c : Word) (s : State) : State := s.issue c

/-- One step of a machine that does not stop. -/
def after (s : State) : Option State :=
  match step s with
  | .next t => some t
  | _ => none

/-- The port's answer to one transaction. -/
def answer (s : State) (t : Transaction) : Option Response := (after { s with inbox := [.host t] }).bind State.resp

/-- A small state: five bytes and three stale ones, two words. -/
def small : State := idle [0x41, 0x42, 0x43, 0x44, 0x45, 0xAA, 0xBB, 0xCC] [0x00000001, 0x00000002] 5 2 ⟨0, 0, 0, 0⟩

def secret : Key := ⟨0x72636573, 0x00007465, 0x00000000, 0x00000000⟩

/-! Well-formed terms: the check refuses an ill-formed one. -/

theorem test_illFormed_refused : (Instr.reservedRsv 4 0).wellFormed = false := by decide

theorem test_wellFormed_accepted : (Instr.reservedRsv 4 1).wellFormed = true ∧ Instr.pack.wellFormed = true := by decide

/-- An ill-formed term stands for no word of its own: its word is another command's. -/
theorem test_illFormed_not_decoded : decode (encode (.reservedRsv 4 0)) = .encrypt := by decide

/-! Decoding: words written out bit by bit from R57 and R58, RSV in bits 31:4 and OP in bits 3:0. -/

theorem test_decode_pack : decode 0b0000000000000000000000000000_0001 = .pack := by decide

theorem test_decode_unpack : decode 0b0000000000000000000000000000_0010 = .unpack := by decide

theorem test_decode_keyload : decode 0b0000000000000000000000000000_0011 = .keyload := by decide

theorem test_decode_encrypt : decode 0b0000000000000000000000000000_0100 = .encrypt := by decide

theorem test_decode_decrypt : decode 0b0000000000000000000000000000_0101 = .decrypt := by decide

theorem test_decode_reservedOp0 : decode 0b0000000000000000000000000000_0000 = .reservedOp0 := by decide

theorem test_decode_reservedOp6 : decode 0b0000000000000000000000000000_0110 = .reservedOp6 := by decide

theorem test_decode_reservedOp7 : decode 0b0000000000000000000000000000_0111 = .reservedOp7 := by decide

theorem test_decode_reservedOp8 : decode 0b0000000000000000000000000000_1000 = .reservedOp8 := by decide

theorem test_decode_reservedOp9 : decode 0b0000000000000000000000000000_1001 = .reservedOp9 := by decide

theorem test_decode_reservedOpA : decode 0b0000000000000000000000000000_1010 = .reservedOpA := by decide

theorem test_decode_reservedOpB : decode 0b0000000000000000000000000000_1011 = .reservedOpB := by decide

theorem test_decode_reservedOpC : decode 0b0000000000000000000000000000_1100 = .reservedOpC := by decide

theorem test_decode_reservedOpD : decode 0b0000000000000000000000000000_1101 = .reservedOpD := by decide

theorem test_decode_reservedOpE : decode 0b0000000000000000000000000000_1110 = .reservedOpE := by decide

theorem test_decode_reservedOpF : decode 0b0000000000000000000000000000_1111 = .reservedOpF := by decide

/-- One bit of RSV, the lowest and the highest, makes any OP reserved (B-26, B-28). -/
theorem test_decode_reservedRsv :
    decode 0b0000000000000000000000000001_0100 = .reservedRsv 0b0100 0b0000000000000000000000000001 ∧
      decode 0b1000000000000000000000000000_0101 = .reservedRsv 0b0101 0b1000000000000000000000000000 := by decide

/-- A command is 32 bits long (R57); the bits a shorter row leaves out are 0. -/
theorem test_decodeTableWord :
    decodeTableWord 32 0x00000003 = some .keyload ∧ decodeTableWord 8 0x05 = some .decrypt ∧
      decodeTableWord 32 0x10000004 = some (.reservedRsv 0x4 0x1000000) ∧ decodeTableWord 64 0x00000003 = none := by decide

/-- The command runs as the first step after reset: every one completes, and the reserved ones report ILLEGAL_CMD. -/
theorem test_withFetchWord_runs :
    (after (State.reset.withFetchWord 32 0x00000001)).map State.statusWord = some 0x02 ∧
      (after (State.reset.withFetchWord 32 0x00000004)).map State.statusWord = some 0x36 ∧
      (after (State.reset.withFetchWord 32 0x0000000A)).map State.statusWord = some 0x16 ∧
      (after (State.reset.withFetchWord 32 0xFFFFFFFF)).map State.statusWord = some 0x16 := by decide

theorem test_reset_memory_wf : Memory.wf State.reset.bbuf ∧ Memory.wf State.reset.wbuf := by decide

/-! The packer. -/

/-- P-8: the stale bytes are not read. -/
theorem test_pack_stale :
    (after (busy 0x00000001 small)).map (fun t => (t.wbuf, t.nwords, t.statusWord, t.eng)) =
      some ([(0, 0x44434241), (1, 0x00000045)], 2, 0x02, .idle) := by decide

/-- P-10 and P-2's remark: a word PACK does not write keeps its old value. -/
theorem test_pack_keeps_rest :
    (after (busy 0x00000001 (idle [0x48, 0x69] [7, 9] 2 5 ⟨0, 0, 0, 0⟩))).map (fun t => (t.wbuf, t.nwords)) =
      some ([(0, 0x00006948), (1, 9)], 1) := by decide

/-- U-1. -/
theorem test_unpack :
    (after (busy 0x00000002 (idle [] [0x44434241, 0x00000005] 0 2 ⟨0, 0, 0, 0⟩))).map (fun t => (t.bbuf, t.nbytes)) =
      some ([(0, 0x41), (1, 0x42), (2, 0x43), (3, 0x44), (4, 0x05), (5, 0x00), (6, 0x00), (7, 0x00)], 8) := by decide

/-- B-30: an empty block is no error. -/
theorem test_unpack_empty :
    (after (busy 0x00000002 (idle [1] [] 1 0 ⟨0, 0, 0, 0⟩))).map (fun t => (t.bbuf, t.nbytes, t.statusWord)) =
      some ([(0, 1)], 0, 0x02) := by decide

/-- K-4: a short key is zero-padded. -/
theorem test_keyload_short :
    (after (busy 0x00000003 (idle [0x73, 0x65, 0x63, 0x72, 0x65, 0x74] [] 6 0 ⟨1, 2, 3, 4⟩))).map State.key =
      some ⟨0x72636573, 0x00007465, 0x00000000, 0x00000000⟩ := by decide

/-- K-7: bytes 16 to 19 are not used. -/
theorem test_keyload_long :
    (after (busy 0x00000003 (idle
      [0x30, 0x31, 0x32, 0x33, 0x34, 0x35, 0x36, 0x37, 0x38, 0x39, 0x41, 0x42, 0x43, 0x44, 0x45, 0x46, 0x47, 0x48, 0x49,
        0x4A] [] 20 0 ⟨0, 0, 0, 0⟩))).map State.key =
      some ⟨0x33323130, 0x37363534, 0x42413938, 0x46454443⟩ := by decide

/-! The cipher. -/

/-- M-2, M-3: the mixing function. -/
theorem test_mx :
    mx ⟨0x00112233, 0x44556677, 0x8899AABB, 0xCCDDEEFF⟩ 0x01234567 0x89ABCDEF 0x9E3779B9 1 2 = 0x7FD35DA1 ∧
      mx ⟨0xFFFFFFFF, 0xFFFFFFFF, 0xFFFFFFFF, 0xFFFFFFFF⟩ 0xFFFFFFFF 0xFFFFFFFF 0xFFFFFFFF 3 3 = 0xD8000012 := by decide

/-- The round counts of R74's table, at its steps. -/
theorem test_rounds :
    [2, 3, 4, 8, 9, 10, 11, 13, 14, 17, 18, 26, 27, 52, 53, 256].map rounds =
      [32, 23, 19, 12, 11, 11, 10, 10, 9, 9, 8, 8, 7, 7, 6, 6] := by decide

/-- E-7: four words, so `y` and `z` differ. -/
theorem test_encrypt :
    (after (busy 0x00000004
      (idle [] [1, 2, 3, 4] 0 4 ⟨0x01234567, 0x89ABCDEF, 0xFEDCBA98, 0x76543210⟩))).map State.wbuf =
      some [(0, 0x5EA4307C), (1, 0x521975D1), (2, 0x2722AAED), (3, 0x3DC8276D)] := by decide +kernel

/-- C-2: a block of one word is refused and unchanged. -/
theorem test_encrypt_short :
    (after (busy 0x00000004 (idle [] [7] 0 1 secret))).map (fun t => (t.wbuf, t.statusWord)) = some ([(0, 7)], 0x36) := by
  decide

/-- P2's DECRYPT. -/
theorem test_decrypt :
    (after (busy 0x00000005
      (idle [] [0x2F7BEC0A, 0xD6BFAD2A, 0xA71342EF, 0x17CFE5DF] 0 4 secret))).map State.wbuf =
      some [(0, 0x6C6C6548), (1, 0x57202C6F), (2, 0x646C726F), (3, 0x00000021)] := by decide +kernel

/-- C-5: more words than the buffer has. -/
theorem test_decrypt_long :
    (after (busy 0x00000005 (idle [] [7] 0 257 secret))).map (fun t => (t.wbuf, t.statusWord)) =
      some ([(0, 7)], 0x26) := by decide

/-! The reserved words. -/

/-- B-25, B-26, B-27: every reserved row completes with STATUS 0x16, and no operand changes. -/
theorem test_reserved_complete :
    ∀ c ∈ [(0x00 : Word), 0x06, 0x07, 0x08, 0x09, 0x0A, 0x0B, 0x0C, 0x0D, 0x0E, 0x0F, 0x14, 0xFFFFFFF1],
      (after (busy c small)).map (fun t => (t.statusWord, t.wbuf, t.bbuf)) = some (0x16, small.wbuf, small.bbuf) := by
  intro c h
  simp only [List.mem_cons, List.not_mem_nil, or_false] at h
  rcases h with rfl | rfl | rfl | rfl | rfl | rfl | rfl | rfl | rfl | rfl | rfl | rfl | rfl <;> decide

/-- B-28: code 1 wins over code 3. -/
theorem test_reserved_wins :
    (after (busy 0x10000004 (idle [] [] 0 1 secret))).map State.statusWord = some 0x16 := by decide

/-! The host port. -/

/-- B-1, B-2, B-3, B-7. -/
theorem test_reads_after_reset :
    [0x000, 0x004, 0x008, 0x00C, 0x010, 0x014, 0x018, 0x020].map (fun off => answer State.reset (.read off .four)) =
      [0x58544541, 0x00000100, 0, 0, 0, 0, 0, 0].map (fun v => some (.okay (some v))) := by decide

/-- B-8 to B-13, B-15: reads of reserved offsets and accesses of a wrong size. -/
theorem test_bus_errors :
    [0x01C, 0x030, 0xC00, 0xFFC, 0x002].map (fun off => answer small (.read off .four)) =
        List.replicate 5 (some (.busError (some 0))) ∧
      answer small (.write 0x400 .four 0) = some (.busError none) ∧
      answer small (.write 0x800 .one 0) = some (.busError none) ∧
      answer small (.write 0x014 .two 0) = some (.busError none) ∧
      answer small (.write 0x016 .four 0) = some (.busError none) ∧
      answer small (.write 0x014 .one 0) = some (.busError none) := by decide

/-- B-14: beyond NMAX. -/
theorem test_beyond_nmax :
    answer { small with cfg := ⟨2, 0x1000⟩ } (.read 0x1408 .one) = some (.busError (some 0)) ∧
      answer { small with cfg := ⟨2, 0x1000⟩ } (.read 0x1808 .four) = some (.busError (some 0)) ∧
      answer { small with cfg := ⟨2, 0x1000⟩ } (.read 0x1407 .one) = some (.okay (some 0xCC)) ∧
      answer { small with cfg := ⟨2, 0x1000⟩ } (.read 0x1804 .four) = some (.okay (some 2)) ∧
      answer { small with cfg := ⟨2, 0x1000⟩ } (.read 0x1004 .four) = some (.okay (some 2)) := by decide

/-- B-16, B-17: the device is busy. -/
theorem test_busy_port :
    answer (busy 1 small) (.read 0x00C .four) = some (.okay (some 0x00000001)) ∧
      answer (busy 1 small) (.write 0x014 .four 2) = some (.busError none) ∧
      answer (busy 1 small) (.read 0x800 .four) = some (.busError (some 0)) ∧
      answer (busy 1 small) (.write 0x010 .four 1) = some (.busError none) ∧
      answer (busy 1 small) (.write 0x400 .one 0) = some (.busError none) ∧
      answer (busy 1 small) (.read 0x020 .four) = some (.busError (some 0)) := by decide

/-- B-5, B-6: a field takes the low bits of the written word. -/
theorem test_field_widths :
    (after { small with inbox := [.host (.write 0x014 .four 0x00012345)] }).map State.nwords = some 0x2345 ∧
      (after { small with inbox := [.host (.write 0x008 .four 0xFFFFFFFF)] }).map State.ie = some true := by decide

/-- B-19, B-20, B-21: STATUS's write-one-to-clear bits. -/
theorem test_status_w1c :
    (after { small.failedWith 3 with inbox := [.host (.write 0x00C .four 0x2)] }).map State.statusWord = some 0x34 ∧
      (after { small.failedWith 3 with done := false, inbox := [.host (.write 0x00C .four 0x4)] }).map State.statusWord =
        some 0x00 ∧
      (after { small.failedWith 3 with inbox := [.host (.write 0x00C .four 0x6)] }).map State.statusWord = some 0x00 := by
  decide

/-- B-22, B-23: the interrupt output. -/
theorem test_irq :
    { small with done := true, ie := true }.irq = true ∧
      (after { small with done := true, ie := true, inbox := [.host (.write 0x008 .four 0)] }).map
        (fun t => (t.irq, t.statusWord)) = some (false, 0x02) := by decide

/-- B-24: a CMD write clears the last report and starts the engine. -/
theorem test_issue :
    (after { small.failedWith 3 with ie := true, inbox := [.host (.write 0x010 .four 0xDEADBEEF)] }).map
      (fun t => (t.statusWord, t.irq, t.cmdl)) = some (0x01, false, 0xDEADBEEF) := by decide

/-- P1's and P2's first lines, expanded (R63, R64). -/
theorem test_expansions :
    hostEvents 0 (HostLine.wrBytes 0 [0x73, 0x65] ++ HostLine.setL 6 ++ HostLine.cmd .keyload ++ HostLine.wrWords 0 [7, 9]) =
      [.host (.write 0x400 .one 0x73), .host (.write 0x401 .one 0x65), .host (.write 0x018 .four 6),
        .host (.write 0x010 .four 3), .host (.write 0x800 .four 7), .host (.write 0x804 .four 9)] := by decide

/-- R112: the host strips every trailing NUL, and only trailing ones (P2's last step). -/
theorem test_strip : stripTrailingNul [0x21, 0x00, 0x22, 0x00, 0x00, 0x00] = [0x21, 0x00, 0x22] := by decide

/-! Witnesses: for each statement with hypotheses, a state and operands that meet all of them, at the boundaries of its
clauses. A statement not listed has no hypotheses. -/

/-- The smallest legal device, NMAX = 2, in a window that does not start at 0. -/
def tiny : Config := ⟨2, 0x5000⟩

/-- A transaction that is next to come. -/
def facing (s : State) (t : Transaction) : State := { s with inbox := [.host t] }

theorem witness_ResetStateValues : Config.reference.wf ∧ tiny.wf := by decide

theorem witness_ResetAbandonsEverything :
    let s : State := { busy 0x00000004 small with
      inbox := .assertReset :: ([.read 0 .four, .write 0x10 .four 1].map .host ++ .releaseReset :: [.engine]) }
    s.inbox = .assertReset :: ([.read 0 .four, .write 0x10 .four 1].map .host ++ .releaseReset :: [.engine]) := rfl

theorem witness_FirstTransactionAfterReset :
    tiny.wf ∧ offsetOf tiny 0x5804 = some 0x804 ∧ legal tiny.nmax 0x804 .four .idle = true ∧
      offsetOf tiny 0x5407 = some 0x407 ∧ legal tiny.nmax 0x407 .one .idle = true := by decide

theorem witness_RegisterReads :
    (∀ off ∈ [0x000, 0x004, 0x008, 0x010, 0x014, 0x018, 0x020, 0x024, 0x028, 0x02C],
      let s := facing { small with cfg := tiny } (.read (tiny.base + off) .four)
      s.cfg.wf ∧ s.inReset = false ∧ s.eng = .idle ∧ s.inbox = .host (.read (s.cfg.base + off) .four) :: []) ∧
    ∀ off ∈ [0x000, 0x004, 0x008],
      let s := facing (busy 1 small) (.read off .four)
      s.cfg.wf ∧ s.inReset = false ∧ s.eng = .busy ∧ s.inbox = .host (.read (s.cfg.base + off) .four) :: [] := by decide

theorem witness_RegisterWrites :
    (∀ off ∈ [0x000, 0x004, 0x008, 0x014, 0x018, 0x020, 0x024, 0x028, 0x02C],
      let s := facing { small with cfg := tiny } (.write (tiny.base + off) .four 0xFFFFFFFF)
      s.cfg.wf ∧ s.inReset = false ∧ s.eng = .idle ∧
        s.inbox = .host (.write (s.cfg.base + off) .four 0xFFFFFFFF) :: []) ∧
    ∀ off ∈ [0x000, 0x004, 0x008],
      let s := facing (busy 1 small) (.write off .four 0)
      s.cfg.wf ∧ s.inReset = false ∧ s.eng = .busy ∧ s.inbox = .host (.write (s.cfg.base + off) .four 0) :: [] := by decide

theorem witness_StatusReadBits :
    ∀ s ∈ [facing small (.read 0x00C .four), facing (busy 1 small) (.read 0x00C .four)],
      s.inReset = false ∧ s.inbox = .host (.read (s.cfg.base + 0x00C) .four) :: [] := by decide

theorem witness_StatusWriteOneToClear :
    ∀ v : Word, ∀ s ∈ [facing (small.failedWith 3) (.write 0x00C .four v), facing (busy 1 small) (.write 0x00C .four v)],
      s.inReset = false ∧ s.inbox = .host (.write (s.cfg.base + 0x00C) .four v) :: [] := by
  intro v s h
  simp only [List.mem_cons, List.not_mem_nil, or_false] at h
  rcases h with rfl | rfl <;> exact ⟨rfl, rfl⟩

theorem witness_InterruptLevel :
    let high : State := { small with ie := true, done := true }
    high.irq = true ∧ high.inReset = false ∧ high.eng = .idle ∧ (∃ t, exec .pack high = .next t) ∧
      (facing high (.write 0x008 .four 0)).inbox = .host (.write (high.cfg.base + 0x008) .four 0) :: [] ∧
      (facing high (.write 0x00C .four 2)).inbox = .host (.write (high.cfg.base + 0x00C) .four 2) :: [] ∧
      (facing high (.write 0x010 .four 1)).inbox = .host (.write (high.cfg.base + 0x010) .four 1) :: [] ∧
      { high with inbox := [.assertReset] }.inbox = .assertReset :: [] ∧
      ∃ t, step (facing high (.write 0x00C .four 2)) = .next t ∧ t.irq = false :=
  ⟨rfl, rfl, rfl, ⟨_, rfl⟩, rfl, rfl, rfl, rfl, _, rfl, rfl⟩

theorem witness_CommandWriteIssues :
    let s := facing (small.failedWith 3) (.write 0x010 .four 0xFFFFFFFF)
    s.inReset = false ∧ s.eng = .idle ∧ s.inbox = .host (.write (s.cfg.base + 0x010) .four 0xFFFFFFFF) :: [] := by decide

theorem witness_EngineTurnRunsDecodedCommand :
    (busy 2 small).inReset = false ∧ (busy 2 small).eng = .busy ∧ (busy 2 small).inbox = [] ∧
      { busy 2 small with inbox := [.engine] }.inbox = .engine :: [] := by decide

theorem witness_EngineIdleTakesNoStep :
    small.eng = .idle ∧ small.inbox = [] ∧ small.holdReset.inReset = true ∧
      { small.holdReset with inbox := [.engine] }.inbox = .engine :: [] := by decide

/-- Both outcomes of a completion: a command whose check passes and one whose check fails. -/
theorem witness_CompletionWritesStatus :
    check .pack small = none ∧ check (decode 0x0) small = some .illegalCmd ∧
      check .encrypt { small with nwords := 257 } = some .lengthRange ∧
      check .encrypt { small with nwords := 1 } = some .shortBlock := by decide

theorem witness_EngineChangesOnlyByIssueCompletionReset :
    (∃ t, step (facing small (.write 0x010 .four 1)) = .next t ∧ small.eng = .idle ∧ t.eng = .busy) ∧
      (∃ t, step (busy 1 small) = .next t ∧ (busy 1 small).eng = .busy ∧ t.eng = .idle) ∧
      ∃ t, step { busy 1 small with inbox := [.assertReset] } = .next t ∧ t.eng = .idle :=
  ⟨⟨_, rfl, by decide⟩, ⟨_, rfl, by decide⟩, ⟨_, rfl, by decide⟩⟩

theorem witness_EveryCommandCompletes :
    let s : State := { busy 1 small with inbox := [.host (.read 0x00C .four), .releaseReset, .engine, .engine] }
    s.inReset = false ∧ s.eng = .busy ∧ .assertReset ∉ s.inbox := by decide

theorem witness_BusyKeepsOperands :
    let s : State := { busy 1 small with
      inbox := [.write 0x00C .four 6, .write 0x014 .four 9, .write 0x400 .one 9].map .host ++ [.engine] }
    s.inReset = false ∧ s.eng = .busy ∧
      s.inbox = [.write 0x00C .four 6, .write 0x014 .four 9, .write 0x400 .one 9].map .host ++ [.engine] := by decide

theorem witness_ResultIndependentOfLatency :
    let s : State := { small with
      inbox := .host (.write 0x010 .four 1) :: ([.write 0x008 .four 1, .write 0x018 .four 9].map .host ++ .engine :: []) }
    s.inReset = false ∧ s.eng = .idle ∧
      s.inbox = .host (.write (s.cfg.base + 0x010) .four 1) ::
        ([.write 0x008 .four 1, .write 0x018 .four 9].map .host ++ .engine :: []) := by decide

/-- Both sides of the equivalence: a legal transaction, and one the map knows but the busy device refuses. -/
theorem witness_LegalAgreesWithMap :
    legal 256 0xBFC .four .idle = true ∧ legal 256 0xBFC .four .busy = false ∧ target 256 0xBFC .four = some (.wbuf 255) ∧
      legal 2 0x808 .four .idle = false ∧ legal 2 0x407 .one .idle = true ∧ legal 256 0xFFF .one .idle = false := by decide

theorem witness_ReservedSpaceIsIllegal :
    [0x01C, 0x030, 0x3FC, 0xC00, 0xFFC, 0x408, 0x7FC, 0x808, 0xBFC].map (fun off => legal 2 off .four .idle) =
        List.replicate 9 false ∧
      [0x408, 0x7FF].map (fun off => legal 2 off .one .idle) = List.replicate 2 false ∧
      legal 256 0x400 .two .idle = false ∧ legal 256 0x001 .four .idle = false ∧ legal 256 0x400 .four .idle = false ∧
      legal 256 0x3FF .one .idle = false ∧ legal 256 0x800 .one .idle = false := by decide

theorem witness_BusErrorChangesNothing :
    let s := facing (busy 1 small) (.read 0x800 .four)
    let u := facing small (.write 0x016 .four 1)
    s.inReset = false ∧ offsetOf s.cfg 0x800 = some 0x800 ∧ legal s.cfg.nmax 0x800 .four s.eng = false ∧
      s.inbox = .host (.read 0x800 .four) :: [] ∧
      u.inReset = false ∧ offsetOf u.cfg 0x016 = some 0x016 ∧ legal u.cfg.nmax 0x016 .four u.eng = false ∧
      u.inbox = .host (.write 0x016 .four 1) :: [] := by decide

theorem witness_LegalTransactionIsOkay :
    let s := facing { small with cfg := tiny } (.read 0x5804 .four)
    let u := facing (busy 1 small) (.write 0x00C .four 1)
    s.cfg.wf ∧ s.inReset = false ∧ offsetOf s.cfg 0x5804 = some 0x804 ∧ legal s.cfg.nmax 0x804 .four s.eng = true ∧
      s.inbox = .host (.read 0x5804 .four) :: [] ∧
      u.cfg.wf ∧ u.inReset = false ∧ offsetOf u.cfg 0x00C = some 0x00C ∧ legal u.cfg.nmax 0x00C .four u.eng = true ∧
      u.inbox = .host (.write 0x00C .four 1) :: [] := by decide

theorem witness_OutsideWindowDoesNotReach :
    let s := facing { small with cfg := tiny } (.read 0x4FFF .one)
    let u := facing { small with cfg := tiny } (.write 0x6000 .four 1)
    0x4FFF < s.cfg.base ∧ s.inbox = .host (.read 0x4FFF .one) :: [] ∧
      u.cfg.base + 0x1000 ≤ 0x6000 ∧ u.inbox = .host (.write 0x6000 .four 1) :: [] := by decide

theorem witness_ReadsHaveNoSideEffect :
    let s : State := { small with inbox := [.host (.read 0x00C .four), .host (.read 0x00C .four)] }
    s.inbox = .host (.read 0x00C .four) :: .host (.read 0x00C .four) :: [] := rfl

/-- The last byte of BBUF and the first one beyond it, read and written, and a word and a half word access there. -/
theorem witness_ByteWindow :
    ∀ i ∈ [0, 7, 8, 0x3FF], ∀ t ∈ [Transaction.read (0x5000 + (0x400 + i)) .one, .write (0x5000 + (0x400 + i)) .one 9,
        .read (0x5000 + (0x400 + i)) .four, .write (0x5000 + (0x400 + i)) .four 9,
        .read (0x5000 + (0x400 + i)) .two, .write (0x5000 + (0x400 + i)) .two 9],
      let s := facing { small with cfg := tiny } t
      s.cfg.wf ∧ s.inReset = false ∧ s.eng = .idle ∧ i < 0x400 ∧ s.inbox = .host t :: [] := by decide

/-- The last word of WBUF and the first one beyond it, read and written, a byte and a half word of them, and a misaligned word. -/
theorem witness_WordWindow :
    ∀ i ∈ [0, 1, 2, 0xFF], ∀ k ∈ [0, 3], ∀ size ∈ [Size.one, .two, .four],
      ∀ t ∈ [Transaction.read (0x5000 + (0x800 + 4 * i + k)) size, .write (0x5000 + (0x800 + 4 * i + k)) size 9],
        let s := facing { small with cfg := tiny } t
        s.cfg.wf ∧ s.inReset = false ∧ s.eng = .idle ∧ i < 0x100 ∧ k < 4 ∧ s.cfg.base = 0x5000 ∧ s.inbox = .host t :: [] := by
  decide

theorem witness_OperationWordsExactly : (0x00000011 : Word) ∉ [0x00000001, 0x00000002, 0x00000003, 0x00000004, 0x00000005] := by
  decide

theorem witness_DecodeEncodeAgree :
    (Instr.reservedRsv 0xF 1).wellFormed = true ∧ Instr.reservedOpF.wellFormed = true ∧ Instr.pack.wellFormed = true := by
  decide

/-- The meanings of one state for the branches of the statement: each code, and success, at the lengths where they
meet. -/
theorem witness_ErrorCodePriority :
    let s (nbytes nwords : BitVec 16) : State := { small with nbytes := nbytes, nwords := nwords }
    (∀ c n w, (s n w).err = false ∧ (s n w).errcode = 0 ∧ ∃ t, exec (decode c) (s n w) = .next t) ∧
      check (decode 0x00000000) (s 1025 257) = some .illegalCmd ∧ check (decode 0x00000001) (s 1025 0) = some .lengthRange ∧
      check (decode 0x00000001) (s 1024 0) = none ∧ check (decode 0x00000003) (s 1025 0) = some .lengthRange ∧
      check (decode 0x00000002) (s 0 257) = some .lengthRange ∧ check (decode 0x00000002) (s 0 0) = none ∧
      check (decode 0x00000004) (s 0 257) = some .lengthRange ∧ check (decode 0x00000004) (s 0 256) = none ∧
      check (decode 0x00000005) (s 0 2) = none ∧ check (decode 0x00000005) (s 0 1) = some .shortBlock :=
  ⟨fun c _ _ => ⟨rfl, rfl, _, exec_eq (decode c) _⟩, by decide⟩

theorem witness_FailedCommandChangesOnlyStatus :
    let s : State := { small with nwords := 1
                                  inbox := .host (.write 0x010 .four 4) :: ([.read 0x00C .four].map .host ++ .engine :: []) }
    s.inReset = false ∧ s.eng = .idle ∧ check (decode 4) s = some .shortBlock ∧
      s.inbox = .host (.write (s.cfg.base + 0x010) .four 4) :: ([.read 0x00C .four].map .host ++ .engine :: []) := by decide

/-- The lengths at which PACK and KEYLOAD change from completing to failing. -/
theorem witness_PackCompletes_KeyloadCompletes :
    { small with nbytes := 0 }.nbytes.toNat ≤ 4 * small.cfg.nmax ∧
      { small with nbytes := 1024 }.nbytes.toNat ≤ 4 * small.cfg.nmax ∧
      4 * small.cfg.nmax < { small with nbytes := 1025 }.nbytes.toNat := by decide

/-- The counts at which UNPACK, ENCRYPT and DECRYPT change from completing to failing. -/
theorem witness_UnpackCompletes_EncryptCompletes_DecryptCompletes :
    small.cfg.wf ∧ { small with nwords := 0 }.nwords.toNat ≤ small.cfg.nmax ∧
      { small with nwords := 1 }.nwords.toNat < 2 ∧ 2 ≤ { small with nwords := 2 }.nwords.toNat ∧
      { small with nwords := 256 }.nwords.toNat ≤ small.cfg.nmax ∧
      small.cfg.nmax < { small with nwords := 257 }.nwords.toNat := by decide

theorem witness_PackerLaws :
    ([1, 2, 3, 4] : List Byte).length % 4 = 0 ∧ 1 < (pack [1, 2, 3, 4, 5]).length ∧ 1 < ([7, 9] : List Word).length := by decide

theorem witness_PackThenUnpack : small.cfg.wf ∧ small.nbytes.toNat ≤ 4 * small.cfg.nmax := by decide

theorem witness_RoundCount :
    ∀ n ∈ [1, 2, 9, 10, 11, 13, 14, 17, 18, 26, 27, 52, 53, 256], 1 ≤ n ∧ (n = 1 ∨ 6 ≤ rounds n ∧ rounds n ≤ 32) := by decide

theorem witness_DecryptLoopCountsRounds : (2 ≤ 2 ∧ rounds 2 < 33) ∧ (2 ≤ 256 ∧ rounds 256 < 7) := by decide

theorem witness_TeaEncryptMeetsReference : 2 ≤ ([7, 9] : List Word).length := by decide

theorem witness_TeaDecryptMeetsReference : 2 ≤ ([7, 9] : List Word).length := by decide

theorem witness_TeaDecryptInvertsTeaEncrypt : 2 ≤ ([7, 9, 11] : List Word).length := by decide

theorem witness_DecryptUndoesEncryptOnDevice : 2 ≤ small.nwords.toNat ∧ small.nwords.toNat ≤ small.cfg.nmax := by decide

/-- For each operation two states that agree on its reads and differ elsewhere. -/
theorem witness_CommandsReadOnlyTheirOperands :
    let other : State := { small with key := secret, nwords := 1, bbuf := cells [0x41, 0x42, 0x43, 0x44, 0x45, 0x00] }
    let other' : State := { small with nbytes := 9, wbuf := cells [1, 2, 3], bbuf := [] }
    (Reference.agreeOnReads .pack small other ∧ check .pack small = none) ∧
      (Reference.agreeOnReads .keyload small other ∧ check .keyload small = none) ∧
      (Reference.agreeOnReads .unpack small other' ∧ check .unpack small = none) ∧
      (Reference.agreeOnReads .encrypt small other' ∧ check .encrypt small = none) ∧
      (Reference.agreeOnReads .decrypt small other' ∧ check .decrypt small = none) ∧
      Reference.agreeOnReads .reservedOp0 small other := by
  simp only [Reference.agreeOnReads]
  decide

/-- Every command, and the first element past each range (2 words of PACK's 5 bytes, 2 words of the block, 8 bytes). -/
theorem witness_CommandsWriteOnlyTheirOperands :
    (∀ i, ∃ t, exec i small = .next t) ∧ (small.nbytes.toNat + 3) / 4 ≤ 2 ∧ small.nwords.toNat ≤ 2 ∧
      4 * small.nwords.toNat ≤ 8 := ⟨fun i => ⟨_, exec_eq i small⟩, by decide⟩

theorem witness_KeyChangesOnlyByKeyloadHostReset :
    (∃ t, step { small with key := secret, inbox := [.assertReset] } = .next t ∧ t.key ≠ secret) ∧
      (∀ off ∈ [0x020, 0x024, 0x028, 0x02C], ∃ t, step (facing small (.write off .four 7)) = .next t ∧ t.key ≠ small.key) ∧
      ∃ t, step (busy 3 small) = .next t ∧ t.key ≠ small.key := by
  refine ⟨⟨_, rfl, by decide⟩, fun off h => ?_, ⟨_, rfl, by decide⟩⟩
  simp only [List.mem_cons, List.not_mem_nil, or_false] at h
  rcases h with rfl | rfl | rfl | rfl <;> exact ⟨_, rfl, by decide⟩

theorem witness_ResetMeetsInvariant : Config.reference.wf ∧ tiny.wf := by decide

/-- States that meet the invariant: after a failed command, in progress, and held in reset; each has a next state. -/
theorem witness_StepKeepsInvariant :
    ∀ s ∈ [small.failedWith 3, busy 1 small, small.holdReset], Inv s ∧ ∃ t, step s = .next t := by
  intro s h
  simp only [List.mem_cons, List.not_mem_nil, or_false] at h
  rcases h with rfl | rfl | rfl
  all_goals
    exact ⟨⟨by decide, by decide, by decide, by decide, by decide, by decide, by decide, by decide, by decide⟩, _, rfl⟩

end Sys2Proof.Tests
end

section
/-! PROOFS. The invariant is kept by every named operation, so by every step (O52, O53). -/

namespace Sys2Proof.Machine

/-- A released reset has empty buffers' lists and no report, so every clause but `cfg_wf` holds of the values
themselves (10_state.md R31). -/
theorem inv_resetWith {cfg : Config} (h : cfg.wf) (draw : Nat) : Inv (State.resetWith cfg draw) where
  cfg_wf := h
  busy_clear hb := nomatch hb
  err_iff := by simp [State.resetWith]
  code_known := by simp [State.resetWith]
  bbuf_wf := Memory.wf_nil
  wbuf_wf := Memory.wf_nil
  bbuf_below := Memory.below_nil _
  wbuf_below := Memory.below_nil _
  held hr := nomatch hr

/-- Settles O52: the reset state of every legal configuration meets the invariant, the reference configuration's too. -/
theorem resetMeetsInvariant : Obligations.ResetMeetsInvariant :=
  ⟨fun _ draw h => inv_resetWith h draw, inv_resetWith (by decide) 0⟩

namespace Inv

variable {s : State}

/-! The operations that keep the invariant in every state: those on the port and on the reset pin. -/

theorem takeEvent (h : Inv s) : Inv s.takeEvent := { h with }

theorem respond (h : Inv s) (r : Response) : Inv (s.respond r) := { h with }

theorem holdReset (h : Inv s) : Inv s.holdReset :=
  { inv_resetWith h.cfg_wf (s.draw + 1) with held := fun _ => ⟨rfl, rfl, rfl, rfl, rfl, rfl, rfl, rfl, rfl⟩ }

theorem releaseReset (h : Inv s) : Inv s.releaseReset :=
  { h with held := fun hr => nomatch hr }

/-! The operations that a device out of reset alone performs: there the clause `held` asks for nothing. -/

/-- A device out of reset owes nothing to the clause `held`. -/
theorem not_held (hr : s.inReset = false) {P : Prop} : s.inReset = true → P :=
  fun hr' => absurd (hr.symm.trans hr') Bool.false_ne_true

section Running
variable (h : Inv s) (hr : s.inReset = false)
include h hr

theorem setIe (b : Bool) : Inv (s.setIe b) :=
  { h with held := not_held hr }

theorem setNwords (v : BitVec 16) : Inv (s.setNwords v) :=
  { h with held := not_held hr }

theorem setNbytes (v : BitVec 16) : Inv (s.setNbytes v) :=
  { h with held := not_held hr }

theorem setKey (k : Key) : Inv (s.setKey k) :=
  { h with held := not_held hr }

theorem storeBytes {i : Nat} {bs : List Byte} (hi : i + bs.length ≤ 4 * s.cfg.nmax) : Inv (s.storeBytes i bs) :=
  { h with
    bbuf_wf := Memory.writeFrom_wf bs h.bbuf_wf i
    bbuf_below := Memory.writeFrom_below bs h.bbuf_below hi
    held := not_held hr }

theorem storeWords {i : Nat} {ws : List Word} (hi : i + ws.length ≤ s.cfg.nmax) : Inv (s.storeWords i ws) :=
  { h with
    wbuf_wf := Memory.writeFrom_wf ws h.wbuf_wf i
    wbuf_below := Memory.writeFrom_below ws h.wbuf_below hi
    held := not_held hr }

theorem clearDone : Inv s.clearDone :=
  { h with
    busy_clear := fun hb => ⟨rfl, (h.busy_clear hb).2⟩
    held := not_held hr }

/-- ERR and ERRCODE are cleared together, so they still agree (10_state.md R20, R21). -/
theorem clearErr : Inv s.clearErr :=
  { h with
    busy_clear := fun hb => ⟨(h.busy_clear hb).1, rfl, rfl⟩
    err_iff := ⟨fun _ => rfl, fun _ => rfl⟩
    code_known := Nat.zero_le 3
    held := not_held hr }

theorem writeStatus (v : Word) : Inv (s.writeStatus v) := by
  have hdone : Inv (if v.getLsbD 1 then s.clearDone else s) := by
    split
    · exact h.clearDone hr
    · exact h
  simp only [State.writeStatus]
  split
  · exact hdone.clearErr (by split <;> exact hr)
  · exact hdone

/-- Issue starts the engine and clears the report at once (60_exceptions.md R88). -/
theorem issue (v : Word) : Inv (s.issue v) :=
  { h with
    busy_clear := fun _ => ⟨rfl, rfl, rfl⟩
    err_iff := ⟨fun _ => rfl, fun _ => rfl⟩
    code_known := Nat.zero_le 3
    held := not_held hr }

theorem finish : Inv s.finish :=
  { h with
    busy_clear := fun hb => nomatch hb
    held := not_held hr }

theorem failedWith (e : CmdError) : Inv (s.failedWith e.code) :=
  { h with
    busy_clear := fun hb => nomatch hb
    err_iff := iff_of_false (Bool.noConfusion ·) (code_ne_zero e)
    code_known := code_le_three e
    held := not_held hr }

/-! A host write. -/

theorem writeReg (r : Reg) (v : Word) : Inv (writeReg s r v) := by
  cases r with
  | id => exact h
  | cap => exact h
  | ctrl => exact h.setIe hr _
  | status => exact h.writeStatus hr v
  | cmd => exact h.issue hr v
  | nwords => exact h.setNwords hr _
  | nbytes => exact h.setNbytes hr _
  | key i => exact h.setKey hr _

/-- A permitted write of a buffer lands inside it (20_memory.md R41, R42). -/
theorem writeTarget {off : Nat} {size : Size} {tgt : Target} (hp : permitted s off size = some tgt) (v : Word) :
    Inv (writeTarget s tgt v) := by
  obtain ⟨hbytes, hwords⟩ := permitted_bound hp
  cases tgt with
  | reg r => exact h.writeReg hr r v
  | bbuf i => exact h.storeBytes hr (hbytes i rfl)
  | wbuf i => exact h.storeWords hr (hwords i rfl)

theorem hostAccess (t : Transaction) : Inv (hostAccess s t) := by
  rcases hostAccess_cases s t with he | ⟨r, he⟩ | ⟨_, _, v, _, tgt, _, _, hp, he⟩ <;> rw [he]
  · exact h
  · exact h.respond r
  · exact (h.writeTarget hr hp v).respond _

end Running
end Inv

/-! The lengths a command's check lets through (60_exceptions.md R92): what its effect stores fits. -/

theorem check_pack_eq_none {s : State} : check .pack s = none ↔ s.byteLength ≤ 4 * s.cfg.nmax := by
  simp [check, State.bbufSize]

theorem check_unpack_eq_none {s : State} : check .unpack s = none ↔ s.blockCount ≤ s.cfg.nmax := by
  simp [check]

theorem check_encrypt_eq_none {s : State} :
    check .encrypt s = none ↔ s.blockCount ≤ s.cfg.nmax ∧ 2 ≤ s.blockCount := by
  by_cases hn : s.blockCount > s.cfg.nmax
  · simp [check, hn]
  · simp [check, hn]
    omega

theorem check_decrypt_eq_none {s : State} :
    check .decrypt s = none ↔ s.blockCount ≤ s.cfg.nmax ∧ 2 ≤ s.blockCount :=
  check_encrypt_eq_none

namespace Inv

variable {s : State} (h : Inv s) (hr : s.inReset = false)
include h hr

/-- "a command never indexes outside BBUF or WBUF" (20_memory.md R51): a command whose check passed stores no more than
the buffer holds. -/
theorem effectOf {i : Instr} (hc : check i s = none) : Inv (effectOf i s) := by
  cases i with
  | pack =>
    have hL := check_pack_eq_none.mp hc
    exact (h.storeWords hr (by simp only [length_pack, State.length_bytes]; omega)).setNwords hr _
  | unpack =>
    have hn := check_unpack_eq_none.mp hc
    exact (h.storeBytes hr (by simp only [length_unpack, State.length_block]; omega)).setNbytes hr _
  | keyload => exact h.setKey hr _
  | encrypt =>
    obtain ⟨hn, -⟩ := check_encrypt_eq_none.mp hc
    exact h.storeWords hr (by simp only [length_teaEncrypt, State.length_block]; omega)
  | decrypt =>
    obtain ⟨hn, -⟩ := check_decrypt_eq_none.mp hc
    exact h.storeWords hr (by simp only [length_teaDecrypt, State.length_block]; omega)
  | _ => cases hc

theorem complete (i : Instr) : Inv (complete (check i s) (Machine.effectOf i) s) := by
  cases hc : check i s with
  | none =>
    obtain ⟨⟨_, _, _, hr', _⟩, _⟩ := effectOf_frame i s
    exact (h.effectOf hr hc).finish (hr'.trans hr)
  | some e => exact h.failedWith hr e

end Inv

/-- Settles O53: by what the step does, each of which is an operation that keeps the invariant. -/
theorem stepKeepsInvariant : Obligations.StepKeepsInvariant := by
  intro s t h hstep
  rcases step_cases s with ⟨_, hr, _, he⟩ | ⟨_, _, he⟩ | ⟨e, _, _, hr, he⟩ | ⟨_, _, _, _, he⟩ | ⟨_, _, he⟩ | ⟨_, _, he⟩
  · rw [he, exec_eq] at hstep
    cases hstep
    exact h.takeEvent.complete hr _
  all_goals
    rw [he] at hstep
    cases hstep
  · exact h.takeEvent
  · exact h.takeEvent.hostAccess hr e
  · exact h.takeEvent
  · exact h.takeEvent.holdReset
  · exact h.takeEvent.releaseReset

end Sys2Proof.Machine
end

section
/-! PROOFS. Which steps move ENG (O14). -/

namespace Sys2Proof.Machine

/-- The register map is R15's table. -/
theorem regAt_eq_some {off : Nat} {r : Reg} :
    regAt off = some r ↔
      (off, r) ∈
        [(0x000, .id), (0x004, .cap), (0x008, .ctrl), (0x00C, .status), (0x010, .cmd), (0x014, .nwords),
          (0x018, .nbytes), (0x020, .key 0), (0x024, .key 1), (0x028, .key 2), (0x02C, .key 3)] := by
  simp only [List.mem_cons, List.not_mem_nil, or_false, Prod.mk.injEq]
  constructor
  · intro h
    unfold regAt at h
    split at h <;> simp_all
  · rintro (⟨rfl, rfl⟩ | ⟨rfl, rfl⟩ | ⟨rfl, rfl⟩ | ⟨rfl, rfl⟩ | ⟨rfl, rfl⟩ | ⟨rfl, rfl⟩ | ⟨rfl, rfl⟩ | ⟨rfl, rfl⟩ |
      ⟨rfl, rfl⟩ | ⟨rfl, rfl⟩ | ⟨rfl, rfl⟩) <;> rfl

/-- A register is reached by a 4-byte transaction at its own offset only (20_memory.md R40). -/
theorem permitted_reg {s : State} {off : Nat} {size : Size} {r : Reg} (h : permitted s off size = some (.reg r)) :
    size = .four ∧ regAt off = some r := by
  unfold permitted target at h
  split at h
  · cases size with
    | one =>
      simp only at h
      split at h <;> cases h
    | two => cases h
    | four =>
      refine ⟨rfl, ?_⟩
      simp only at h
      split at h
      · split at h
        · rename_i hr
          cases h
          exact hr
        · split at h <;> cases h
      · cases h
  · cases h

/-- Of all the host's writes the one of CMD alone moves ENG (60_exceptions.md R88). -/
theorem writeTarget_eng (s : State) (tgt : Target) (v : Word) :
    (writeTarget s tgt v).eng = if tgt = .reg .cmd then .busy else s.eng := by
  cases tgt with
  | bbuf i => simp [writeTarget]
  | wbuf i => simp [writeTarget]
  | reg r => cases r <;> simp [writeTarget, writeReg, State.writeStatus_eq]

/-- What a host transaction does to ENG: nothing, unless it is a permitted write of CMD, which is issued. -/
theorem hostAccess_eng_cases (s : State) (t : Transaction) :
    (hostAccess s t).eng = s.eng ∨
      ∃ v, t = .write (s.cfg.base + 0x010) .four v ∧ (hostAccess s t).eng = .busy ∧ (hostAccess s t).cmdl = v := by
  rcases hostAccess_cases s t with he | ⟨r, he⟩ | ⟨addr, size, v, off, tgt, ht, ho, hp, he⟩
  · exact .inl (by rw [he])
  · exact .inl (by rw [he, State.respond_eng])
  · by_cases hcmd : tgt = .reg .cmd
    · subst hcmd
      obtain ⟨rfl, hreg⟩ := permitted_reg hp
      have hoff : off = 0x010 := by simpa using regAt_eq_some.mp hreg
      obtain ⟨-, haddr⟩ := offsetOf_lt ho
      exact .inr ⟨v, by rw [ht, haddr, hoff], by rw [he]; rfl, by rw [he]; rfl⟩
    · exact .inl (by rw [he, State.respond_eng, writeTarget_eng, if_neg hcmd])

/-- What a step does to ENG: the write of CMD makes it BUSY, the completion step and the assertion of `rst_n` make it
IDLE, and every other step leaves it. -/
theorem step_eng_cases {s t : State} (h : step s = .next t) :
    t.eng = s.eng ∨
      (s.inReset = false ∧ t.eng = .busy ∧
        ∃ v rest, s.inbox = .host (.write (s.cfg.base + 0x010) .four v) :: rest ∧ t.cmdl = v) ∨
      (t.eng = .idle ∧ ((∃ rest, s.inbox = .assertReset :: rest) ∨
        (s.inReset = false ∧ engineIsNext s ∧ t.done = true))) := by
  rcases step_cases s with ⟨hi, hr, _, he⟩ | ⟨_, _, he⟩ | ⟨e, rest, hi, hr, he⟩ | ⟨_, _, _, _, he⟩ | ⟨rest, hi, he⟩ |
    ⟨_, _, he⟩
  · rw [he, exec_eq] at h
    cases h
    exact .inr (.inr ⟨complete_eng .., .inr ⟨hr, hi, complete_done ..⟩⟩)
  all_goals
    rw [he] at h
    cases h
  · exact .inl rfl
  · rcases hostAccess_eng_cases s.takeEvent e with heng | ⟨v, rfl, heng, hcmdl⟩
    · exact .inl heng
    · exact .inr (.inl ⟨hr, heng, v, rest, hi, hcmdl⟩)
  · exact .inl rfl
  · exact .inr (.inr ⟨rfl, .inl ⟨rest, hi⟩⟩)
  · exact .inl rfl

/-- Settles O14: by what a step does to ENG. -/
theorem engineChangesOnlyByIssueCompletionReset : Obligations.EngineChangesOnlyByIssueCompletionReset := by
  intro s t h
  rcases step_eng_cases h with heng | ⟨hr, hbusy, hcmd⟩ | ⟨hidle, hby⟩
  · exact ⟨fun hs ht => by simp [heng, hs] at ht, fun hs ht => by simp [heng, hs] at ht⟩
  · exact ⟨fun _ _ => ⟨hr, hcmd⟩, fun _ ht => by simp [hbusy] at ht⟩
  · exact ⟨fun _ ht => by simp [hidle] at ht, fun _ _ => hby⟩

end Sys2Proof.Machine
end

section
/-! PROOFS. The registers: their reset values, and what a 4-byte read or write of each does (O1, O4 to O7). -/

namespace Sys2Proof.Machine

/-! What a register's fields are as words. -/

/-- NMAX of a legal configuration fits the 16 bits of CAP (10_state.md R18). -/
theorem capValue_eq {nmax : Nat} (h : nmax ≤ 256) : capValue nmax = BitVec.ofNat 32 nmax := by
  apply BitVec.eq_of_toNat_eq
  simp only [capValue, BitVec.toNat_setWidth, BitVec.toNat_ofNat]
  omega

theorem lengthField_eq (v : Word) : lengthField v = v.extractLsb' 0 16 := by
  simp [lengthField, BitVec.setWidth_eq_extractLsb']

/-- The bits of STATUS, each in its place (10_state.md R20). -/
theorem statusWord_getLsbD (s : State) (i : Nat) :
    s.statusWord.getLsbD i =
      match i with
      | 0 => s.busy
      | 1 => s.done
      | 2 => s.err
      | 3 => false
      | i + 4 => s.errcode.getLsbD i := by
  simp only [State.statusWord, BitVec.getLsbD_or, BitVec.getLsbD_shiftLeft, BitVec.getLsbD_setWidth,
    BitVec.getLsbD_ofBool]
  match i with
  | 0 | 1 | 2 | 3 => simp
  | i + 4 =>
    by_cases hi : i < 28
    · simp [show i < 32 by omega, show i + 4 < 32 by omega]
    · simp [BitVec.getLsbD_of_ge s.errcode i (by omega)]

/-- Settles O1: the values are those `State.resetWith` names. -/
theorem resetStateValues : Obligations.ResetStateValues := by
  intro cfg draw hcfg s
  obtain ⟨_, hmax, _⟩ := hcfg
  have hkey : ∀ i, s.key.get i = 0 := by
    show ∀ i, Key.get ⟨0, 0, 0, 0⟩ i = 0
    decide
  have hcap : (readReg s .cap).toNat = cfg.nmax := by
    show (capValue cfg.nmax).toNat = cfg.nmax
    rw [capValue_eq hmax, BitVec.toNat_ofNat]
    omega
  have hstatus : s.statusWord = 0 := by
    have hbusy : s.busy = false := rfl
    rw [State.statusWord, hbusy]
    simp [s, State.resetWith]
  exact ⟨rfl, rfl, rfl, rfl, rfl, rfl, hstatus, rfl, rfl, hkey, rfl, hcap, rfl, fun _ => rfl, fun _ => rfl⟩

/-! A step that takes a 4-byte transaction of a register. -/

theorem regAt_lt {off : Nat} {r : Reg} (h : regAt off = some r) : off < 0x1000 := by
  have hmem := regAt_eq_some.mp h
  simp only [List.mem_cons, List.not_mem_nil, or_false, Prod.mk.injEq] at hmem
  omega

/-- R44: ID, CAP, CTRL and STATUS are reached always, the other registers while the engine is idle. -/
theorem permitted_register {s : State} {off : Nat} {r : Reg} (hreg : regAt off = some r)
    (hopen : s.eng = .idle ∨ off ∈ [0x000, 0x004, 0x008, 0x00C]) : permitted s off .four = some (.reg r) := by
  have hmem := regAt_eq_some.mp hreg
  simp only [List.mem_cons, List.not_mem_nil, or_false, Prod.mk.injEq] at hmem
  rcases hmem with ⟨rfl, rfl⟩ | ⟨rfl, rfl⟩ | ⟨rfl, rfl⟩ | ⟨rfl, rfl⟩ | hmem
  · rfl
  · rfl
  · rfl
  · rfl
  · have hidle : s.eng = .idle := hopen.resolve_right (by simp; omega)
    rcases hmem with ⟨rfl, rfl⟩ | ⟨rfl, rfl⟩ | ⟨rfl, rfl⟩ | ⟨rfl, rfl⟩ | ⟨rfl, rfl⟩ | ⟨rfl, rfl⟩ | ⟨rfl, rfl⟩ <;>
      (rw [permitted, hidle]; rfl)

section Access
variable {s : State} {rest : List Event} {off : Nat} {r : Reg} (hr : s.inReset = false) (hreg : regAt off = some r)
  (hopen : s.eng = .idle ∨ off ∈ [0x000, 0x004, 0x008, 0x00C])
include hr hreg hopen

/-- A read answers the register's value and changes nothing (R50). -/
theorem step_read_register (hi : s.inbox = .host (.read (s.cfg.base + off) .four) :: rest) :
    step s = .next (s.answered rest (.okay (some (readReg s r)))) := by
  have hp : permitted { s with inbox := rest, resp := none } off .four = some (.reg r) := permitted_register hreg hopen
  rw [step_host hr hi]
  simp only [hostAccess, offsetOf_base s.cfg (regAt_lt hreg), memRead, hp]
  cases r <;> rfl

/-- A write answers OKAY and does what `writeReg` says. -/
theorem step_write_register {v : Word} (hi : s.inbox = .host (.write (s.cfg.base + off) .four v) :: rest) :
    step s = .next ((writeReg s r v).answered rest (.okay none)) := by
  have hp : permitted { s with inbox := rest, resp := none } off .four = some (.reg r) := permitted_register hreg hopen
  rw [step_host hr hi]
  simp only [hostAccess, offsetOf_base s.cfg (regAt_lt hreg), memWrite, hp, writeTarget]
  cases r with
  | status => simp only [writeReg, State.writeStatus_eq]; rfl
  | _ => rfl

end Access

/-- The offsets at which a busy device answers in O4 and O5 are among those of R44. -/
theorem open_of_alwaysOpen {s : State} {off : Nat}
    (h : s.eng = .idle ∨ off = 0x000 ∨ off = 0x004 ∨ off = 0x008) :
    s.eng = .idle ∨ off ∈ [0x000, 0x004, 0x008, 0x00C] :=
  h.imp_right fun h => by simp; omega

/-- Settles O4: each row of the table is a register and its value. -/
theorem registerReads : Obligations.RegisterReads := by
  intro s rest off v hcfg hr hopen hi hmem
  obtain ⟨_, hmax, _⟩ := hcfg
  have hctrl : readReg s .ctrl = if s.ie then 1 else 0 := by cases h : s.ie <;> simp [readReg, h]
  have hval : ∃ r, regAt off = some r ∧ readReg s r = v := by
    simp only [List.mem_cons, List.not_mem_nil, or_false, Prod.mk.injEq] at hmem
    rcases hmem with ⟨rfl, rfl⟩ | ⟨rfl, rfl⟩ | ⟨rfl, rfl⟩ | ⟨rfl, rfl⟩ | ⟨rfl, rfl⟩ | ⟨rfl, rfl⟩ | ⟨rfl, rfl⟩ |
      ⟨rfl, rfl⟩ | ⟨rfl, rfl⟩ | ⟨rfl, rfl⟩
    · exact ⟨_, rfl, rfl⟩
    · exact ⟨_, rfl, capValue_eq hmax⟩
    · exact ⟨_, rfl, hctrl⟩
    all_goals exact ⟨_, rfl, rfl⟩
  obtain ⟨r, hreg, rfl⟩ := hval
  exact step_read_register hr hreg (open_of_alwaysOpen hopen) hi

/-- Settles O5: at each offset the write of the register there. -/
theorem registerWrites : Obligations.RegisterWrites := by
  intro s rest off v _ hr hopen hi t
  have hwrite : ∀ r, regAt off = some r → step s = .next ((writeReg s r v).answered rest (.okay none)) :=
    fun r hreg => step_write_register hr hreg (open_of_alwaysOpen hopen) hi
  rw [← lengthField_eq]
  refine ⟨?_, ?_, ?_, ?_, ?_, ?_, ?_, ?_⟩
  · rintro (rfl | rfl)
    · exact hwrite .id rfl
    · exact hwrite .cap rfl
  · rintro rfl; exact hwrite .ctrl rfl
  · rintro rfl; exact hwrite .nwords rfl
  · rintro rfl; exact hwrite .nbytes rfl
  · rintro rfl; exact hwrite (.key 0) rfl
  · rintro rfl; exact hwrite (.key 1) rfl
  · rintro rfl; exact hwrite (.key 2) rfl
  · rintro rfl; exact hwrite (.key 3) rfl

/-- Settles O6: the read answers `statusWord`, whose bits `statusWord_getLsbD` names. -/
theorem statusReadBits : Obligations.StatusReadBits := by
  intro s rest hr hi
  have bit := statusWord_getLsbD s
  have hcode : s.statusWord.extractLsb' 4 4 = s.errcode := by
    apply BitVec.eq_of_getLsbD_eq
    intro i hi
    simp [hi, Nat.add_comm 4 i, bit]
  have hhigh : s.statusWord.extractLsb' 8 24 = 0 := by
    apply BitVec.eq_of_getLsbD_eq
    intro i hi
    have hpos : 8 + i = (i + 4) + 4 := by omega
    simp [hpos, bit]
  exact ⟨s.statusWord, step_read_register hr (r := .status) rfl (.inr (by simp)) hi,
    by rw [bit]; simp [State.busy], bit 1, bit 2, bit 3, hcode, hhigh⟩

/-- Settles O7: the write is `writeStatus`, which `State.writeStatus_eq` spells out. -/
theorem statusWriteOneToClear : Obligations.StatusWriteOneToClear := by
  intro s rest v hr hi
  rw [step_write_register hr (r := .status) rfl (.inr (by simp)) hi, writeReg, State.writeStatus_eq]
  rfl

end Sys2Proof.Machine
end

section
/-! PROOFS. Which transactions are legal, as conditions on the offset, and what they name in the map (O18 to O20). -/

namespace Sys2Proof.Machine

variable {nmax off : Nat} {eng : Engine}

theorem legal_one_iff :
    legal nmax off .one eng = true ↔ (0x400 ≤ off ∧ off < 0x400 + 4 * nmax) ∧ eng = .idle := by
  simp [legal]

theorem legal_two : legal nmax off .two eng = false := rfl

/-- 4-byte transactions: the four registers open to a busy device, the other seven while idle, and the words. -/
theorem legal_four_iff :
    legal nmax off .four eng = true ↔
      off ∈ [0x000, 0x004, 0x008, 0x00C] ∨
        eng = .idle ∧ (off ∈ [0x010, 0x014, 0x018, 0x020, 0x024, 0x028, 0x02C] ∨
          off % 4 = 0 ∧ 0x800 ≤ off ∧ off < 0x800 + 4 * nmax) := by
  by_cases halign : off % 4 = 0
  · simp only [legal, if_pos halign]
    split
    · simp [*]
    · split
      · simp [*]
      · split <;> simp [*]
  · have hreg : ∀ l : List Nat, (∀ o ∈ l, o % 4 = 0) → off ∉ l := fun l hl hmem => halign (hl off hmem)
    simp [legal, halign, hreg [0x000, 0x004, 0x008, 0x00C] (by decide),
      hreg [0x010, 0x014, 0x018, 0x020, 0x024, 0x028, 0x02C] (by decide)]

/-- What a 1-byte transaction names (20_memory.md R41). -/
theorem target_one_iff {t : Target} :
    target nmax off .one = some t ↔ (0x400 ≤ off ∧ off < 0x400 + 4 * nmax) ∧ t = .bbuf (off - 0x400) := by
  simp only [target]
  split <;> simp [*, eq_comm]

/-- What a 4-byte transaction names (20_memory.md R40, R42). -/
theorem target_four_iff {t : Target} :
    target nmax off .four = some t ↔
      (∃ r, regAt off = some r ∧ t = .reg r) ∨
        (off % 4 = 0 ∧ 0x800 ≤ off ∧ off < 0x800 + 4 * nmax) ∧ t = .wbuf ((off - 0x800) / 4) := by
  simp only [target]
  cases hreg : regAt off with
  | some r =>
    have hmem := regAt_eq_some.mp hreg
    simp only [List.mem_cons, List.not_mem_nil, or_false, Prod.mk.injEq] at hmem
    have halign : off % 4 = 0 := by omega
    have hlow : ¬0x800 ≤ off := by omega
    simp [halign, hlow, eq_comm]
  | none =>
    by_cases halign : off % 4 = 0
    · by_cases hwin : 0x800 ≤ off ∧ off < 0x800 + 4 * nmax
      · simp [halign, hwin, eq_comm]
      · simp [halign, hwin]
    · simp [halign]

/-- The registers a transaction may reach, by their offsets: four always, the other seven while idle (20_memory.md
R44). -/
theorem exists_reachable_reg_iff :
    (∃ r, regAt off = some r ∧ (eng = .idle ∨ r = .id ∨ r = .cap ∨ r = .ctrl ∨ r = .status)) ↔
      off ∈ [0x000, 0x004, 0x008, 0x00C] ∨ eng = .idle ∧ off ∈ [0x010, 0x014, 0x018, 0x020, 0x024, 0x028, 0x02C] := by
  cases eng with
  | idle => simp [regAt_eq_some, exists_or, or_assoc]
  | busy => simp [regAt_eq_some, and_or_left, or_and_right, exists_or]

/-- Settles O20: at a busy engine only the always-open registers' clause of each size is left. -/
theorem busyLegalExactly : Obligations.BusyLegalExactly := by
  intro nmax off size
  cases size with
  | one => simp [legal_one_iff]
  | two => simp [legal_two]
  | four => simp [legal_four_iff]

/-- Settles O19: none of the listed offsets meets the conditions for its size. -/
theorem reservedSpaceIsIllegal : Obligations.ReservedSpaceIsIllegal := by
  intro nmax off size eng _ _ _ hcase
  rw [Bool.eq_false_iff]
  intro hlegal
  cases size with
  | one =>
    obtain ⟨hwin, -⟩ := legal_one_iff.mp hlegal
    simp only [reduceCtorEq, false_and, false_or, true_and] at hcase
    omega
  | two => cases hlegal
  | four =>
    have hoff := legal_four_iff.mp hlegal
    simp only [List.mem_cons, List.not_mem_nil, or_false] at hoff
    simp only [reduceCtorEq, false_and, or_false, false_or, true_and] at hcase
    omega

/-- Settles O18: for 4 bytes, the registers one may reach and the words are the two kinds of target. -/
theorem legalAgreesWithMap : Obligations.LegalAgreesWithMap := by
  intro nmax off size eng _ _
  cases size with
  | one => simp [legal_one_iff, target_one_iff]
  | two => simp [legal_two, target]
  | four =>
    rw [legal_four_iff, and_or_left, ← or_assoc, ← exists_reachable_reg_iff, and_comm (a := eng = .idle)]
    simp [target_four_iff, or_and_right, exists_or]

end Sys2Proof.Machine
end

section
/-! PROOFS. A step that takes a transaction of any address: whether the device answers it, and what it leaves (O22 to
O24). -/

namespace Sys2Proof.Machine

variable {s : State} {rest : List Event} {addr off : Nat} {size : Size} {tgt : Target} {v : Word}

theorem permitted_of_legal (h : legal s.cfg.nmax off size s.eng = true) :
    permitted s off size = target s.cfg.nmax off size := if_pos h

theorem permitted_of_illegal (h : legal s.cfg.nmax off size s.eng = false) : permitted s off size = none :=
  if_neg (by simp [h])

/-- The inputs and the answer at the port are no part of what a read answers. -/
theorem readTarget_port (s : State) (rest : List Event) (resp : Option Response) (tgt : Target) :
    readTarget { s with inbox := rest, resp := resp } tgt = readTarget s tgt := by
  cases tgt with
  | reg r => cases r <;> rfl
  | bbuf i => rfl
  | wbuf i => rfl

/-- A write keeps the inbox, and its answer replaces the last one. -/
theorem writeTarget_port (s : State) (rest : List Event) (tgt : Target) (v : Word) (r : Response) :
    (writeTarget { s with inbox := rest, resp := none } tgt v).respond r = (writeTarget s tgt v).answered rest r := by
  cases tgt with
  | reg r =>
    cases r with
    | status => simp only [writeTarget, writeReg, State.writeStatus_eq]; rfl
    | _ => rfl
  | bbuf i => rfl
  | wbuf i => rfl

section Running
variable (hr : s.inReset = false) (ho : offsetOf s.cfg addr = some off)
include hr ho

theorem step_read_permitted (hp : permitted s off size = some tgt) (hi : s.inbox = .host (.read addr size) :: rest) :
    step s = .next (s.answered rest (.okay (some (readTarget s tgt)))) := by
  have hp' : permitted { s with inbox := rest, resp := none } off size = some tgt := hp
  rw [step_host hr hi]
  simp only [hostAccess, ho, memRead, hp', readTarget_port]
  rfl

theorem step_read_refused (hp : permitted s off size = none) (hi : s.inbox = .host (.read addr size) :: rest) :
    step s = .next (s.answered rest (.busError (some 0))) := by
  have hp' : permitted { s with inbox := rest, resp := none } off size = none := hp
  rw [step_host hr hi]
  simp only [hostAccess, ho, memRead, hp']
  rfl

theorem step_write_permitted (hp : permitted s off size = some tgt)
    (hi : s.inbox = .host (.write addr size v) :: rest) :
    step s = .next ((writeTarget s tgt v).answered rest (.okay none)) := by
  have hp' : permitted { s with inbox := rest, resp := none } off size = some tgt := hp
  rw [step_host hr hi]
  simp only [hostAccess, ho, memWrite, hp', writeTarget_port]

theorem step_write_refused (hp : permitted s off size = none) (hi : s.inbox = .host (.write addr size v) :: rest) :
    step s = .next (s.answered rest (.busError none)) := by
  have hp' : permitted { s with inbox := rest, resp := none } off size = none := hp
  rw [step_host hr hi]
  simp only [hostAccess, ho, memWrite, hp']
  rfl

end Running

/-- A transaction outside the window is only taken, in reset or out of it (20_memory.md R38). -/
theorem step_outside {t : Transaction} (hi : s.inbox = .host t :: rest)
    (ht : t = .read addr size ∨ t = .write addr size v) (ho : offsetOf s.cfg addr = none) :
    step s = .next { s with inbox := rest, resp := none } := by
  rcases Bool.eq_false_or_eq_true s.inReset with hr | hr
  · exact step_host_held hr hi
  · rw [step_host hr hi]
    rcases ht with rfl | rfl <;> simp only [hostAccess, ho]

/-- A read only puts an answer at the port, and the answer does not depend on what stands there (20_memory.md R50). -/
theorem step_read (s : State) (addr : Nat) (size : Size) :
    ∃ r : Option Response, ∀ (rest : List Event) (resp : Option Response),
      step { s with inbox := .host (.read addr size) :: rest, resp := resp } =
        .next { s with inbox := rest, resp := r } := by
  rcases Bool.eq_false_or_eq_true s.inReset with hr | hr
  · exact ⟨none, fun _ _ => step_host_held hr rfl⟩
  · cases ho : offsetOf s.cfg addr with
    | none => exact ⟨none, fun _ _ => step_outside (v := 0) rfl (.inl rfl) ho⟩
    | some off =>
      cases hp : permitted s off size with
      | none => exact ⟨_, fun _ _ => step_read_refused hr ho hp rfl⟩
      | some tgt =>
        refine ⟨some (.okay (some (readTarget s tgt))), fun rest resp => ?_⟩
        rw [← readTarget_port s (.host (.read addr size) :: rest) resp]
        exact step_read_permitted hr ho hp rfl

/-- Settles O22: a legal transaction names something, so it is permitted. -/
theorem legalTransactionIsOkay : Obligations.LegalTransactionIsOkay := by
  intro s rest addr off size v _ hr ho hlegal
  obtain ⟨tgt, htgt⟩ := legal_target hlegal
  have hp : permitted s off size = some tgt := (permitted_of_legal hlegal).trans htgt
  exact ⟨fun hi => ⟨_, step_read_permitted hr ho hp hi, ⟨_, rfl⟩, fun _ => nofun⟩,
    fun hi => ⟨_, step_write_permitted hr ho hp hi, rfl, fun _ => nofun⟩⟩

/-- Settles O23: such an address has no offset in the window. -/
theorem outsideWindowDoesNotReach : Obligations.OutsideWindowDoesNotReach := by
  intro s rest addr size v hout hi
  rcases hi with hi | hi
  · exact step_outside (v := v) hi (.inl rfl) (offsetOf_outside hout)
  · exact step_outside hi (.inr rfl) (offsetOf_outside hout)

/-- Settles O24: both steps are reads of the same state but for the port. -/
theorem readsHaveNoSideEffect : Obligations.ReadsHaveNoSideEffect := by
  intro s rest addr size hi
  obtain ⟨r, hread⟩ := step_read s addr size
  have hfirst : step s = .next { s with inbox := .host (.read addr size) :: rest, resp := r } := by
    simpa [← hi] using hread (.host (.read addr size) :: rest) s.resp
  exact ⟨r, hfirst, (run_succ hfirst 1).trans (run_one (hread rest r))⟩

end Sys2Proof.Machine
end

section
/-! PROOFS. The two buffers' windows (O25, O26). -/

namespace Sys2Proof.Machine

variable {s : State} {rest : List Event} {off : Nat} {size : Size} {tgt : Target} {v : Word}

/-- R41, R49: the byte lane is stored in the one byte. -/
theorem bbufAt_writeTarget (s : State) (i : Nat) (v : Word) (j : Nat) :
    (writeTarget s (.bbuf i) v).bbufAt j = if j = i then v.extractLsb' 0 8 else s.bbufAt j := by
  rw [writeTarget, State.bbufAt_storeBytes, byteLane_zero, List.length_singleton]
  by_cases hj : j = i
  · simp [hj]
  · rw [if_neg (by omega), if_neg hj]

/-- R42, R49: the word is stored in the one element. -/
theorem wbufAt_writeTarget (s : State) (i : Nat) (v : Word) (j : Nat) :
    (writeTarget s (.wbuf i) v).wbufAt j = if j = i then v else s.wbufAt j := by
  rw [writeTarget, State.wbufAt_storeWords, List.length_singleton]
  by_cases hj : j = i
  · simp [hj]
  · rw [if_neg (by omega), if_neg hj]

/-- R41: what a 1-byte transaction reaches in the BBUF window. -/
theorem permitted_byte (hidle : s.eng = .idle) (i : Nat) :
    permitted s (0x400 + i) .one = if i < 4 * s.cfg.nmax then some (.bbuf i) else none := by
  simp [permitted, hidle, legal, target]

/-- R42: what an aligned 4-byte transaction reaches in the WBUF window. -/
theorem permitted_word (hidle : s.eng = .idle) (i : Nat) :
    permitted s (0x800 + 4 * i) .four = if i < s.cfg.nmax then some (.wbuf i) else none := by
  split
  · have hlegal := legal_four_iff.mpr (.inr ⟨hidle, .inr (show (0x800 + 4 * i) % 4 = 0 ∧ 0x800 ≤ 0x800 + 4 * i ∧
      0x800 + 4 * i < 0x800 + 4 * s.cfg.nmax by omega)⟩)
    rw [permitted_of_legal hlegal, target_four_iff]
    exact .inr ⟨by omega, by congr; omega⟩
  · refine permitted_of_illegal (Bool.eq_false_iff.mpr fun hlegal => ?_)
    have hoff := legal_four_iff.mp hlegal
    simp only [List.mem_cons, List.not_mem_nil, or_false] at hoff
    omega

section Running
variable (hr : s.inReset = false) (hoff : off < 0x1000)
include hr hoff

/-- A read and a write at an offset that holds an element while `p`, and nothing else. -/
theorem step_window {p : Prop} [Decidable p] (hp : permitted s off size = if p then some tgt else none) :
    (s.inbox = .host (.read (s.cfg.base + off) size) :: rest →
      step s = .next (s.answered rest (if p then .okay (some (readTarget s tgt)) else .busError (some 0)))) ∧
    (s.inbox = .host (.write (s.cfg.base + off) size v) :: rest →
      (¬p → step s = .next (s.answered rest (.busError none))) ∧
      (p → step s = .next ((writeTarget s tgt v).answered rest (.okay none)))) := by
  have ho := offsetOf_base s.cfg hoff
  by_cases h : p
  · rw [if_pos h] at hp ⊢
    exact ⟨step_read_permitted hr ho hp, fun hi => ⟨absurd h, fun _ => step_write_permitted hr ho hp hi⟩⟩
  · rw [if_neg h] at hp ⊢
    exact ⟨step_read_refused hr ho hp, fun hi => ⟨fun _ => step_write_refused hr ho hp hi, (absurd · h)⟩⟩

theorem step_illegal (hlegal : legal s.cfg.nmax off size s.eng = false) :
    (s.inbox = .host (.read (s.cfg.base + off) size) :: rest → step s = .next (s.answered rest (.busError (some 0)))) ∧
      (s.inbox = .host (.write (s.cfg.base + off) size v) :: rest →
        step s = .next (s.answered rest (.busError none))) :=
  have ho := offsetOf_base s.cfg hoff
  have hp := permitted_of_illegal hlegal
  ⟨step_read_refused hr ho hp, step_write_refused hr ho hp⟩

end Running

/-- Settles O25: the 1-byte access by what it reaches, the others as R43's illegal ones. -/
theorem byteWindow : Obligations.ByteWindow := by
  intro s rest i v hcfg hr hidle hi
  obtain ⟨hmin, hmax, -⟩ := hcfg
  have hoff : 0x400 + i < 0x1000 := by omega
  obtain ⟨hread, hwrite⟩ := step_window (rest := rest) (v := v) hr hoff (permitted_byte hidle i)
  refine ⟨hread, fun hin => ?_, fun size hsize => step_illegal hr hoff ?_⟩
  · obtain ⟨hrefused, hstored⟩ := hwrite hin
    exact ⟨fun hout => hrefused (by omega), fun hlt => ⟨_, hstored hlt, bbufAt_writeTarget s i v, rfl⟩⟩
  · rcases hsize with rfl | rfl
    · exact legal_two
    · exact reservedSpaceIsIllegal _ _ _ _ hmin hmax hoff (by simp; omega)

/-- Settles O26: the aligned 4-byte access by what it reaches, the others as R43's illegal ones. -/
theorem wordWindow : Obligations.WordWindow := by
  intro s rest i k v hcfg hr hidle hi
  obtain ⟨hmin, hmax, -⟩ := hcfg
  obtain ⟨hread, hwrite⟩ :=
    step_window (rest := rest) (v := v) hr (by omega : 0x800 + 4 * i < 0x1000) (permitted_word hidle i)
  refine ⟨hread, fun hin => ?_, fun size hk hsize => ?_⟩
  · obtain ⟨hrefused, hstored⟩ := hwrite hin
    exact ⟨fun hout => hrefused (by omega), fun hlt => ⟨_, hstored hlt, wbufAt_writeTarget s i v, rfl⟩⟩
  · have hoff : 0x800 + 4 * i + k < 0x1000 := by omega
    have hlegal : legal s.cfg.nmax (0x800 + 4 * i + k) size s.eng = false := by
      rcases hsize with rfl | rfl | ⟨rfl, hpos⟩
      · exact reservedSpaceIsIllegal _ _ _ _ hmin hmax hoff (by simp; omega)
      · exact legal_two
      · exact reservedSpaceIsIllegal _ _ _ _ hmin hmax hoff (by simp; omega)
    rw [Nat.add_assoc] at hoff hlegal ⊢
    exact step_illegal hr hoff hlegal

end Sys2Proof.Machine
end

section
/-! PROOFS. A command in progress through any transactions (O16, O17). -/

namespace Sys2Proof.Machine

/-- Through any transactions a busy device changes CTRL.IE and the report bits at most, and a report bit only to 0
(20_memory.md R44, 10_state.md R20): `hostAccess_busy`, transaction by transaction. -/
theorem run_transactions_busy (ts : List Transaction) {s : State} {rest : List Event} (hr : s.inReset = false)
    (hb : s.eng = .busy) (hi : s.inbox = ts.map .host ++ rest) :
    ∃ ie done err errcode resp,
      Host.Core.run core ts.length s =
          .next { s with ie := ie, done := done, err := err, errcode := errcode, resp := resp, inbox := rest } ∧
        (s.done = false → done = false) ∧ (s.err = false → err = false) ∧ (s.errcode = 0 → errcode = 0) := by
  induction ts generalizing s with
  | nil =>
    refine ⟨s.ie, s.done, s.err, s.errcode, s.resp, ?_, id, id, id⟩
    have hrest : s.inbox = rest := hi
    rw [← hrest]
    exact run_zero s
  | cons t ts ih =>
    have hi' : s.inbox = .host t :: (ts.map .host ++ rest) := hi
    obtain ⟨ie, done, err, errcode, resp, haccess, hdone, herr, hcode⟩ :=
      hostAccess_busy (s := { s with inbox := ts.map .host ++ rest, resp := none }) hb t
    have hstep := (step_host hr hi').trans (congrArg _ haccess)
    obtain ⟨ie', done', err', errcode', resp', hrun, hdone', herr', hcode'⟩ :=
      ih (s := { s with ie, done, err, errcode, resp, inbox := ts.map .host ++ rest }) hr hb rfl
    exact ⟨ie', done', err', errcode', resp', (run_succ hstep _).trans hrun, hdone' ∘ hdone, herr' ∘ herr,
      hcode' ∘ hcode⟩

/-- Settles O16: the run of the transactions leaves all but CTRL.IE and the report. -/
theorem busyKeepsOperands : Obligations.BusyKeepsOperands := by
  intro s ts rest hr hb hi
  obtain ⟨_, _, _, _, _, hrun, -⟩ := run_transactions_busy ts hr hb hi
  exact ⟨_, hrun, hb, rfl, ⟨rfl, rfl, rfl, fun _ => rfl, fun _ => rfl⟩, rfl, rfl, hr, rfl⟩

/-- CTRL.IE and what stands at the port, which no command reads or writes (30_encoding.md R60). -/
def State.withPort (s : State) (ie : Bool) (inbox : List Event) (resp : Option Response) : State :=
  { s with ie, inbox, resp }

theorem effectOf_withPort (i : Instr) (s : State) (ie : Bool) (inbox : List Event) (resp : Option Response) :
    effectOf i (s.withPort ie inbox resp) = (effectOf i s).withPort ie inbox resp := by
  cases i <;> rfl

theorem complete_withPort (i : Instr) (s : State) (ie : Bool) (inbox : List Event) (resp : Option Response) :
    complete (check i (s.withPort ie inbox resp)) (effectOf i) (s.withPort ie inbox resp) =
      (complete (check i s) (effectOf i) s).withPort ie inbox resp := by
  have hcheck : check i (s.withPort ie inbox resp) = check i s := check_congr rfl rfl rfl i
  rw [hcheck]
  cases check i s with
  | none => rw [complete_none, effectOf_withPort]; rfl
  | some e => rfl

/-- Where no report stands, the engine's turn after any transactions gives the completion step taken at once, but for
CTRL.IE and the port (70_reset_and_hazards.md R117). -/
theorem run_transactions_then_completion (ts : List Transaction) {s : State} {rest : List Event}
    (hr : s.inReset = false) (hb : s.eng = .busy) (hdone : s.done = false) (herr : s.err = false)
    (hcode : s.errcode = 0) (hi : s.inbox = ts.map .host ++ .engine :: rest) :
    ∃ ie, Host.Core.run core (ts.length + 1) s =
      .next ((complete (check (decode s.cmdl) s) (effectOf (decode s.cmdl)) s).withPort ie rest none) := by
  obtain ⟨ie, done, err, errcode, resp, hrun, hdone', herr', hcode'⟩ := run_transactions_busy ts hr hb hi
  obtain rfl : done = s.done := (hdone' hdone).trans hdone.symm
  obtain rfl : err = s.err := (herr' herr).trans herr.symm
  obtain rfl : errcode = s.errcode := (hcode' hcode).trans hcode.symm
  have hturn : step (s.withPort ie (.engine :: rest) resp) = exec (decode s.cmdl) (s.withPort ie rest none) :=
    (step_engineIsNext (.inr ⟨rest, rfl⟩)).trans (engineTurn_run hr hb)
  rw [exec_eq, complete_withPort] at hturn
  exact ⟨ie, (run_add hrun 1).trans (run_one hturn)⟩

/-- Settles O17: the issue, then the run to the completion step. An issue leaves no report that a transaction could
clear. -/
theorem resultIndependentOfLatency : Obligations.ResultIndependentOfLatency := by
  intro s v ts rest hr hidle hi
  have hissue : step s = .next ((s.issue v).withPort s.ie (ts.map .host ++ .engine :: rest) (some (.okay none))) :=
    step_write_register hr (r := .cmd) rfl (.inl hidle) hi
  obtain ⟨ie, hrun⟩ := run_transactions_then_completion ts (rest := rest)
    (s := (s.issue v).withPort s.ie (ts.map .host ++ .engine :: rest) (some (.okay none))) hr rfl rfl rfl rfl rfl
  obtain ⟨hcfg, hcmdl, -, hreset, hdraw, -, -⟩ := complete_sameRest (decode v) (check (decode v) (s.issue v)) (s.issue v)
  rw [complete_withPort] at hrun
  exact ⟨_, _, (run_succ hissue _).trans hrun, exec_eq _ _, rfl, rfl, rfl, rfl,
    ⟨rfl, rfl, rfl, fun _ => rfl, fun _ => rfl⟩, hcmdl, hcfg, hdraw, hreset.trans hr, rfl⟩

end Sys2Proof.Machine
end

section
/-! PROOFS. Decoding by fields, and the encoder as its inverse (O27, O29, O30). -/

namespace Sys2Proof

open Laws

/-! The word of a command is its two fields, and the decoder reads them back. -/

/-- The word of every command holds its fields and nothing else (30_encoding.md R57). -/
theorem encode_fields (i : Instr) : Fields.Statement i := by
  cases i with
  | pack => exact Fields.pack
  | unpack => exact Fields.unpack
  | keyload => exact Fields.keyload
  | encrypt => exact Fields.encrypt
  | decrypt => exact Fields.decrypt
  | reservedOp0 => exact Fields.reservedOp0
  | reservedOp6 => exact Fields.reservedOp6
  | reservedOp7 => exact Fields.reservedOp7
  | reservedOp8 => exact Fields.reservedOp8
  | reservedOp9 => exact Fields.reservedOp9
  | reservedOpA => exact Fields.reservedOpA
  | reservedOpB => exact Fields.reservedOpB
  | reservedOpC => exact Fields.reservedOpC
  | reservedOpD => exact Fields.reservedOpD
  | reservedOpE => exact Fields.reservedOpE
  | reservedOpF => exact Fields.reservedOpF
  | reservedRsv op rsv => exact Fields.reservedRsv op rsv

/-- A word is its two fields side by side: none of its bits lies outside them (R57). -/
theorem rsvField_append_opField (c : Word) : rsvField c ++ opField c = c := by
  apply BitVec.eq_of_getLsbD_eq
  intro j hj
  rw [rsvField, opField, BitVec.getLsbD_append]
  by_cases h : j < 4
  · simp [h]
  · simp [h, show j - 4 < 28 by omega, show 4 + (j - 4) = j by omega]

/-- What the rows of one word hold: any OP, and RSV 0 (R58). -/
theorem decodeOp_fields :
    ∀ op : BitVec 4, Fields.op (decodeOp op) = op ∧ Fields.rsv (decodeOp op) = 0 ∧ (decodeOp op).wellFormed = true := by
  decide

/-- The decoded command is well-formed and has the word's two fields. -/
theorem decode_fields (c : Word) :
    Fields.op (decode c) = opField c ∧ Fields.rsv (decode c) = rsvField c ∧ (decode c).wellFormed = true := by
  unfold decode
  split
  · rename_i hrsv
    rw [hrsv]
    exact decodeOp_fields (opField c)
  · rename_i hrsv
    exact ⟨rfl, rfl, bne_iff_ne.mpr hrsv⟩

/-- A well-formed command is what its fields select (R58). -/
theorem select_fields {i : Instr} (h : i.wellFormed = true) :
    (if Fields.rsv i = 0#28 then decodeOp (Fields.op i) else .reservedRsv (Fields.op i) (Fields.rsv i)) = i := by
  cases i with
  | reservedRsv op rsv => exact if_neg (bne_iff_ne.mp h)
  | _ => rfl

theorem decode_encode {i : Instr} (h : i.wellFormed = true) : decode (encode i) = i := by
  obtain ⟨hop, hrsv, -⟩ := encode_fields i
  rw [decode, hop, hrsv, select_fields h]

theorem encode_decode (c : Word) : encode (decode c) = c := by
  obtain ⟨-, -, hword⟩ := encode_fields (decode c)
  obtain ⟨hop, hrsv, -⟩ := decode_fields c
  rw [hword, hop, hrsv, rsvField_append_opField]

/-- Settles O29: through the two fields, in both directions. -/
theorem decodeEncodeAgree : Obligations.DecodeEncodeAgree :=
  ⟨fun _ h => decode_encode h, fun c => ⟨(decode_fields c).2.2, encode_decode c⟩⟩

/-- A well-formed command is decoded from its own word only (R59: "the full 32-bit word is compared"). -/
theorem decode_eq_iff {i : Instr} (h : i.wellFormed = true) {c : Word} : decode c = i ↔ c = encode i :=
  ⟨fun hc => by rw [← hc, encode_decode], fun hc => by rw [hc, decode_encode h]⟩

/-- Settles O27: each written word is the word of the well-formed command beside it. -/
theorem commandWordsDecode : Obligations.CommandWordsDecode :=
  ⟨decode_encode (i := .pack) rfl, decode_encode (i := .unpack) rfl, decode_encode (i := .keyload) rfl,
    decode_encode (i := .encrypt) rfl, decode_encode (i := .decrypt) rfl, decode_encode (i := .reservedOp0) rfl,
    decode_encode (i := .reservedOp6) rfl, decode_encode (i := .reservedOpF) rfl,
    decode_encode (i := .reservedRsv 0x4 0x0000001) rfl, decode_encode (i := .reservedRsv 0x4 0x1000000) rfl,
    decode_encode (i := .reservedRsv 0xF 0xFFFFFFF) rfl⟩

/-! The opcode table. -/

/-- Each row of one word compares the whole word with the word of its well-formed command (R58). -/
theorem opcodeRows_match :
    ∀ r ∈ opcodeRows, r.mask = BitVec.allOnes 32 ∧ r.pattern = encode r.instr ∧ r.instr.wellFormed = true := by
  decide

/-- Every value of OP has its row of one word (R58). -/
theorem exists_opcodeRow : ∀ op : BitVec 4, ∃ r ∈ opcodeRows, r.instr = decodeOp op := by
  decide

/-- A row of one word matches exactly the words that decode to its command. -/
theorem opcodeRow_match_iff {r : OpcodeRow} (hr : r ∈ opcodeRows) (c : Word) :
    c &&& r.mask = r.pattern ↔ decode c = r.instr := by
  obtain ⟨hmask, hpattern, hwf⟩ := opcodeRows_match r hr
  rw [hmask, hpattern, BitVec.and_allOnes, decode_eq_iff hwf]

theorem decode_eq_decodeByTable (c : Word) : decode c = decodeByTable c := by
  unfold decodeByTable
  split
  · rename_i r hfind
    have hmatch : c &&& r.mask = r.pattern := by simpa using List.find?_some hfind
    exact (opcodeRow_match_iff (List.mem_of_find?_eq_some hfind) c).mp hmatch
  · rename_i hfind
    have hrsv : rsvField c ≠ 0#28 := by
      intro hrsv
      obtain ⟨r, hr, hinstr⟩ := exists_opcodeRow (opField c)
      have hdecode : decode c = r.instr := by rw [decode, if_pos hrsv, hinstr]
      exact List.find?_eq_none.mp hfind r hr (beq_iff_eq.mpr ((opcodeRow_match_iff hr c).mpr hdecode))
    rw [decode, if_neg hrsv]

/-- Settles O30: a row matches the words that decode to its command, and no two rows share a command. -/
theorem decodeFollowsOpcodeTable : Obligations.DecodeFollowsOpcodeTable := by
  have hinstr : opcodeRows.Pairwise (fun a b => a.instr ≠ b.instr) := by decide
  refine ⟨decode_eq_decodeByTable, hinstr.imp_of_mem fun ha hb hne c ⟨hca, hcb⟩ => hne ?_⟩
  rw [← (opcodeRow_match_iff ha c).mp hca, (opcodeRow_match_iff hb c).mp hcb]

end Sys2Proof
end

section
/-! PROOFS. The operations and the reserved words (O28, O33). -/

namespace Sys2Proof.Machine

/-- The five commands that are no reserved word (30_encoding.md R58). -/
def operations : List Instr := [.pack, .unpack, .keyload, .encrypt, .decrypt]

/-- R92: every command but the operations fails Check with ILLEGAL_CMD, whatever the state. -/
theorem check_reserved {i : Instr} (h : i ∉ operations) (s : State) : check i s = some .illegalCmd := by
  cases i with
  | pack | unpack | keyload | encrypt | decrypt => exact absurd (by decide) h
  | _ => rfl

/-- R61: a reserved command's completion step is the report alone. -/
theorem exec_reserved {i : Instr} (h : i ∉ operations) (s : State) : exec i s = .next (s.failedWith 1) := by
  rw [exec_eq, check_reserved h, complete_some]
  rfl

/-- Only the operations' own words decode to an operation (R59). -/
theorem decode_mem_operations_iff (c : Word) : decode c ∈ operations ↔ c ∈ operations.map encode := by
  have hwf : ∀ i ∈ operations, i.wellFormed = true := by decide
  rw [List.mem_map]
  constructor
  · exact fun h => ⟨decode c, h, encode_decode c⟩
  · rintro ⟨i, hi, rfl⟩
    rwa [decode_encode (hwf i hi)]

/-- Settles O28: an operation is decoded from its own word, and what is no operation fails Check. -/
theorem operationWordsExactly : Obligations.OperationWordsExactly := fun c =>
  ⟨decode_eq_iff (i := .pack) rfl, decode_eq_iff (i := .unpack) rfl, decode_eq_iff (i := .keyload) rfl,
    decode_eq_iff (i := .encrypt) rfl, decode_eq_iff (i := .decrypt) rfl,
    fun h s => check_reserved (mt (decode_mem_operations_iff c).mp h) s⟩

/-- Settles O33: none of the twelve is an operation. -/
theorem reservedWordsComplete : Obligations.ReservedWordsComplete := by
  intro op rsv s i hi
  have hreserved : i ∉ operations := by
    intro hop
    simp only [operations, List.mem_cons, List.not_mem_nil, or_false] at hop
    rcases hop with rfl | rfl | rfl | rfl | rfl <;> simp at hi
  exact exec_reserved hreserved s

end Sys2Proof.Machine
end

section
/-! PROOFS. What a command reads and writes (O49, O50). -/

namespace Sys2Proof.Machine

/-! The two ends of a completion step. -/

theorem exec_eq_of_check_none {i : Instr} {s : State} (h : check i s = none) :
    exec i s = .next (effectOf i s).finish := by
  rw [exec_eq, h, complete_none]

/-- A completion step is a report, or the command's effect and no report (60_exceptions.md R89). -/
theorem exec_cases {i : Instr} {s t : State} (h : exec i s = .next t) :
    (∃ e, check i s = some e ∧ t = s.failedWith e.code) ∨ (check i s = none ∧ t = (effectOf i s).finish) := by
  rw [exec_eq] at h
  cases h
  cases check i s with
  | none => exact .inr ⟨rfl, complete_none ..⟩
  | some e => exact .inl ⟨e, rfl, complete_some ..⟩

namespace State

@[simp] theorem finish_bbufAt (s : State) (j : Nat) : s.finish.bbufAt j = s.bbufAt j := by rfl

@[simp] theorem finish_wbufAt (s : State) (i : Nat) : s.finish.wbufAt i = s.wbufAt i := by rfl

@[simp] theorem setNwords_wbufAt (s : State) (v : BitVec 16) (i : Nat) : (s.setNwords v).wbufAt i = s.wbufAt i := by rfl

@[simp] theorem setNbytes_bbufAt (s : State) (v : BitVec 16) (j : Nat) : (s.setNbytes v).bbufAt j = s.bbufAt j := by rfl

/-! The operands read from a buffer depend on the elements below the length alone. -/

theorem bytes_congr {s s' : State} {L : Nat} (h : ∀ j, j < L → s.bbufAt j = s'.bbufAt j) : s.bytes L = s'.bytes L :=
  List.map_congr_left fun j hj => h j (List.mem_range.mp hj)

theorem block_congr {s s' : State} {n : Nat} (h : ∀ i, i < n → s.wbufAt i = s'.wbufAt i) : s.block n = s'.block n :=
  List.map_congr_left fun i hi => h i (List.mem_range.mp hi)

theorem byteLength_congr {s s' : State} (h : s.nbytes = s'.nbytes) : s.byteLength = s'.byteLength :=
  congrArg BitVec.toNat h

theorem blockCount_congr {s s' : State} (h : s.nwords = s'.nwords) : s.blockCount = s'.blockCount :=
  congrArg BitVec.toNat h

theorem take_bytes (s : State) (L m : Nat) : (s.bytes L).take m = s.bytes (min m L) := by
  rw [bytes, ← List.map_take, List.take_range, bytes]

end State

/-- A key is made of the first 16 bytes, or of the fewer there are (R68). -/
theorem keypack_bytes_congr {s s' : State} {L : Nat} (h : ∀ j, j < min L 16 → s.bbufAt j = s'.bbufAt j) :
    keypack (s.bytes L) = keypack (s'.bytes L) := by
  have htake : (s.bytes L).take (min L 16) = (s'.bytes L).take (min L 16) := by
    rw [State.take_bytes, State.take_bytes, Nat.min_eq_left (Nat.min_le_left L 16), State.bytes_congr h]
  unfold keypack
  rw [State.length_bytes, State.length_bytes, htake]

/-! What each effect leaves in the buffers it writes: the written range, and every other element as it was. -/

theorem packEffect_wbufAt (s : State) (i : Nat) :
    (packEffect s).wbufAt i =
      if i < (s.byteLength + 3) / 4 then (pack (s.bytes s.byteLength)).getD i 0 else s.wbufAt i := by
  rw [packEffect, State.setNwords_wbufAt, State.wbufAt_storeWords]
  simp

theorem unpackEffect_bbufAt (s : State) (j : Nat) :
    (unpackEffect s).bbufAt j =
      if j < 4 * s.blockCount then (unpack (s.block s.blockCount)).getD j 0 else s.bbufAt j := by
  rw [unpackEffect, State.setNbytes_bbufAt, State.bbufAt_storeBytes]
  simp

theorem encryptEffect_wbufAt (s : State) (i : Nat) :
    (encryptEffect s).wbufAt i =
      if i < s.blockCount then (teaEncrypt s.key (s.block s.blockCount)).getD i 0 else s.wbufAt i := by
  rw [encryptEffect, State.wbufAt_storeWords]
  simp

theorem decryptEffect_wbufAt (s : State) (i : Nat) :
    (decryptEffect s).wbufAt i =
      if i < s.blockCount then (teaDecrypt s.key (s.block s.blockCount)).getD i 0 else s.wbufAt i := by
  rw [decryptEffect, State.wbufAt_storeWords]
  simp

/-! O49. -/

/-- Check reads the length of the command's row and the capacity (R92). -/
theorem check_eq_of_agreeOnReads {i : Instr} {s s' : State} (h : Reference.agreeOnReads i s s') :
    check i s = check i s' := by
  obtain ⟨hcap, hrow⟩ := h
  cases i with
  | pack | keyload =>
    obtain ⟨hlen, -⟩ := hrow
    simp [check, State.bbufSize, hcap, State.byteLength_congr hlen]
  | unpack | encrypt | decrypt =>
    obtain ⟨hlen, -⟩ := hrow
    simp only [check, hcap, State.blockCount_congr hlen]
  | _ => rfl

/-- What an effect writes in its row is a function of what its row reads (R60). -/
theorem effectOf_agreeOnWrites {i : Instr} {s s' : State} (h : Reference.agreeOnReads i s s') :
    Reference.agreeOnWrites i s (effectOf i s).finish (effectOf i s').finish := by
  obtain ⟨-, hrow⟩ := h
  cases i with
  | pack =>
    obtain ⟨hlen, hread⟩ := hrow
    have hL := State.byteLength_congr hlen
    have hbytes : s.bytes s.byteLength = s'.bytes s.byteLength := State.bytes_congr hread
    refine ⟨by simp [effectOf_pack, packEffect, hL], fun j (hj : j < (s.byteLength + 3) / 4) => ?_⟩
    simp only [effectOf_pack, State.finish_wbufAt, packEffect_wbufAt, ← hL, hbytes, if_pos hj]
  | unpack =>
    obtain ⟨hlen, hread⟩ := hrow
    have hn := State.blockCount_congr hlen
    have hblock : s.block s.blockCount = s'.block s.blockCount := State.block_congr hread
    refine ⟨by simp [effectOf_unpack, unpackEffect, hn], fun j (hj : j < 4 * s.blockCount) => ?_⟩
    simp only [effectOf_unpack, State.finish_bbufAt, unpackEffect_bbufAt, ← hn, hblock, if_pos hj]
  | keyload =>
    obtain ⟨hlen, hread⟩ := hrow
    have hkey : keypack (s.bytes s.byteLength) = keypack (s'.bytes s.byteLength) := keypack_bytes_congr hread
    simp only [Reference.agreeOnWrites, effectOf_keyload, State.finish_key, keyloadEffect, State.setKey_key, hkey,
      ← State.byteLength_congr hlen]
  | encrypt =>
    obtain ⟨hlen, hread, hkey⟩ := hrow
    have hblock : s.block s.blockCount = s'.block s.blockCount := State.block_congr hread
    intro j (hj : j < s.blockCount)
    simp only [effectOf_encrypt, State.finish_wbufAt, encryptEffect_wbufAt, ← State.blockCount_congr hlen, hblock, hkey,
      if_pos hj]
  | decrypt =>
    obtain ⟨hlen, hread, hkey⟩ := hrow
    have hblock : s.block s.blockCount = s'.block s.blockCount := State.block_congr hread
    intro j (hj : j < s.blockCount)
    simp only [effectOf_decrypt, State.finish_wbufAt, decryptEffect_wbufAt, ← State.blockCount_congr hlen, hblock, hkey,
      if_pos hj]
  | _ => trivial

/-- Settles O49: Check and the effect depend on the row's reads alone. -/
theorem commandsReadOnlyTheirOperands : Obligations.CommandsReadOnlyTheirOperands := by
  intro i s s' hreads
  have hcheck := check_eq_of_agreeOnReads hreads
  exact ⟨hcheck, fun h => ⟨_, _, exec_eq_of_check_none h, exec_eq_of_check_none (hcheck.symm.trans h),
    effectOf_agreeOnWrites hreads⟩⟩

/-! O50. -/

/-- Each register and buffer is left alone by every effect but those whose row writes it (R60). -/
theorem effectOf_keeps (i : Instr) (s : State) :
    (i ≠ .pack → (effectOf i s).nwords = s.nwords) ∧
      (i ≠ .unpack → (effectOf i s).nbytes = s.nbytes ∧ (effectOf i s).bbuf = s.bbuf) ∧
      (i ≠ .keyload → (effectOf i s).key = s.key) ∧
      (i ≠ .pack → i ≠ .encrypt → i ≠ .decrypt → (effectOf i s).wbuf = s.wbuf) := by
  cases i <;> simp [effectOf, packEffect, unpackEffect, keyloadEffect, encryptEffect, decryptEffect]

/-- Settles O50: a report writes STATUS only; an effect leaves alone what `effectOf_keeps` says, and in the buffer it
stores to every element past the stored range. -/
theorem commandsWriteOnlyTheirOperands : Obligations.CommandsWriteOnlyTheirOperands := by
  intro i s t h
  rcases exec_cases h with ⟨e, -, rfl⟩ | ⟨-, rfl⟩
  · exact ⟨fun _ => rfl, fun _ => ⟨rfl, fun _ => rfl⟩, fun _ => rfl, fun _ _ _ _ => rfl, fun _ _ _ => rfl,
      fun _ _ _ => rfl, fun _ _ _ => rfl, complete_sameRest i (some e) s⟩
  · obtain ⟨hnwords, hbytes, hkey, hwbuf⟩ := effectOf_keeps i s
    obtain ⟨⟨_, _, _, _, hdraw, _⟩, _⟩ := effectOf_frame i s
    refine ⟨hnwords, fun hi => ⟨(hbytes hi).1, State.bbufAt_congr (hbytes hi).2 hdraw⟩, hkey,
      fun hp he hd => State.wbufAt_congr (hwbuf hp he hd) hdraw, ?_, ?_, ?_,
      complete_sameRest i none s⟩
    · rintro rfl j (hj : (s.byteLength + 3) / 4 ≤ j)
      rw [State.finish_wbufAt, effectOf_pack, packEffect_wbufAt, if_neg (Nat.not_lt.mpr hj)]
    · rintro (rfl | rfl) j (hj : s.blockCount ≤ j)
      · rw [State.finish_wbufAt, effectOf_encrypt, encryptEffect_wbufAt, if_neg (Nat.not_lt.mpr hj)]
      · rw [State.finish_wbufAt, effectOf_decrypt, decryptEffect_wbufAt, if_neg (Nat.not_lt.mpr hj)]
    · rintro rfl j (hj : 4 * s.blockCount ≤ j)
      rw [State.finish_bbufAt, effectOf_unpack, unpackEffect_bbufAt, if_neg (Nat.not_lt.mpr hj)]

end Sys2Proof.Machine
end


section
/-! PROOFS. The packing functions as inverses of each other, and the key they make (O37, O38). -/

namespace Sys2Proof.Machine

/-- Two lists of one length with the same elements, read as `pack` and `unpack` are read, are equal. -/
theorem list_ext_getD {α : Type} {l l' : List α} (d : α) (hlen : l.length = l'.length)
    (h : ∀ i, i < l.length → l.getD i d = l'.getD i d) : l = l' := by
  refine List.ext_getElem hlen fun i hi hi' => ?_
  rw [← List.getD_eq_getElem l d hi, h i hi, List.getD_eq_getElem l' d hi']

/-! A word of `pack`, past the end of the bytes too (R66). -/

/-- A packed word depends on the bytes alone, those past the end being 0. -/
theorem packWord_congr {b b' : List Byte} (h : ∀ j, b.getD j 0 = b'.getD j 0) (i : Nat) :
    packWord b i = packWord b' i := by
  simp only [packWord, h]

/-- A word wholly past the end of the bytes is 0, so no bound on `i` is needed. -/
theorem getD_pack_eq_packWord (b : List Byte) (i : Nat) : (pack b).getD i 0 = packWord b i := by
  rw [getD_pack]
  split
  · rfl
  · refine word_ext fun j hj => ?_
    rw [packWord_byte b i hj, List.getD_eq_default b 0 (by omega)]
    simp

/-- R66: a packed word's number, from its four bytes. -/
theorem packWord_toNat (b : List Byte) (i : Nat) :
    (packWord b i).toNat =
      (b.getD (4 * i) 0).toNat + (b.getD (4 * i + 1) 0).toNat * 256 + (b.getD (4 * i + 2) 0).toNat * 65536 +
        (b.getD (4 * i + 3) 0).toNat * 16777216 := by
  have h0 : (packWord b i).extractLsb' 0 8 = b.getD (4 * i) 0 := packWord_byte b i (j := 0) (by decide)
  have h1 : (packWord b i).extractLsb' 8 8 = b.getD (4 * i + 1) 0 := packWord_byte b i (j := 1) (by decide)
  have h2 : (packWord b i).extractLsb' 16 8 = b.getD (4 * i + 2) 0 := packWord_byte b i (j := 2) (by decide)
  have h3 : (packWord b i).extractLsb' 24 8 = b.getD (4 * i + 3) 0 := packWord_byte b i (j := 3) (by decide)
  rw [word_toNat, h0, h1, h2, h3]

/-- R67: a byte of a word as the rule cuts it, `(w >> k) & 0xFF`. -/
theorem setWidth_extractLsb'_byte (w : Word) (k : Nat) : (w.extractLsb' k 8).setWidth 32 = (w >>> k) &&& 0xFF := by
  refine BitVec.eq_of_toNat_eq ?_
  have hmask : (w.toNat >>> k) &&& 255 = (w.toNat >>> k) % 2 ^ 8 := Nat.and_two_pow_sub_one_eq_mod _ 8
  rw [BitVec.toNat_setWidth_of_le (by decide), BitVec.extractLsb'_toNat, BitVec.toNat_and, BitVec.toNat_ushiftRight]
  exact hmask.symm

/-! The round trips (R72). -/

/-- Reading a byte of `unpack (pack b)`, past its end too, is reading the byte of `b`. -/
theorem getD_unpack_pack (b : List Byte) (k : Nat) : (unpack (pack b)).getD k 0 = b.getD k 0 := by
  by_cases hk : k < 4 * ((b.length + 3) / 4)
  · have hword : k / 4 < (pack b).length := by rw [length_pack]; omega
    have hlane : k % 4 < 4 := Nat.mod_lt _ (by decide)
    have h := getD_unpack (pack b) hword hlane
    rwa [getD_pack_eq_packWord, packWord_byte b _ hlane, Nat.div_add_mod] at h
  · rw [List.getD_eq_default _ _ (by simp only [length_unpack, length_pack]; omega),
      List.getD_eq_default b _ (by omega)]

/-- Zero bytes appended to a byte string read as its end does. -/
theorem getD_append_zeros (b : List Byte) (m k : Nat) : (b ++ List.replicate m 0).getD k 0 = b.getD k 0 := by
  by_cases hk : k < b.length
  · exact List.getD_append b _ 0 k hk
  · have hk := Nat.le_of_not_lt hk
    rw [List.getD_append_right b _ 0 k hk, List.getD_eq_default b 0 hk, List.getD_eq_getElem?_getD,
      List.getElem?_getD_replicate_default_eq]

theorem unpack_pack (b : List Byte) : unpack (pack b) = b ++ List.replicate ((4 - b.length % 4) % 4) 0 := by
  refine list_ext_getD 0 ?_ fun k _ => (getD_unpack_pack b k).trans (getD_append_zeros b _ k).symm
  simp only [length_unpack, length_pack, List.length_append, List.length_replicate]
  omega

theorem pack_unpack (w : List Word) : pack (unpack w) = w := by
  have hlen : (pack (unpack w)).length = w.length := by simp only [length_pack, length_unpack]; omega
  refine list_ext_getD 0 hlen fun i hi => word_ext fun j hj => ?_
  rw [getD_pack_eq_packWord, packWord_byte _ i hj, getD_unpack w (hlen ▸ hi) hj]

/-- Settles O37: the two lengths, the two round trips, and the value of each byte and of each word. -/
theorem packerLaws : Obligations.PackerLaws := by
  refine ⟨length_pack, length_unpack, fun b hb => ?_, unpack_pack, pack_unpack, fun w i j hi hj => ?_, fun b i _ => ?_⟩
  · rw [unpack_pack, hb]
    exact List.append_nil b
  · rw [getD_unpack w hi hj, setWidth_extractLsb'_byte]
  · rw [getD_pack_eq_packWord, packWord_toNat]

/-! The key (R68). -/

/-- The key's words are the first four of the first 16 bytes, whether there are as many or not. -/
theorem keypack_eq (b : List Byte) :
    keypack b = ⟨packWord (b.take 16) 0, packWord (b.take 16) 1, packWord (b.take 16) 2, packWord (b.take 16) 3⟩ := by
  have htake : b.take (min b.length 16) = b.take 16 := by rw [Nat.min_comm, ← List.take_eq_take_min]
  simp only [keypack, htake, getD_pack_eq_packWord]

theorem keypack_get (b : List Byte) {i : Nat} (hi : i < 4) :
    (keypack b).get (BitVec.ofNat 2 i) = packWord (b.take 16) i := by
  rw [keypack_eq]
  match i, hi with
  | 0, _ | 1, _ | 2, _ | 3, _ => rfl

/-- Settles O38: the padded string fills four words, whose bytes are those of the first 16 bytes. -/
theorem keypackZeroPads : Obligations.KeypackZeroPads := by
  intro b
  have hlen : (b.take 16 ++ List.replicate (16 - b.length) 0).length = 16 := by
    simp only [List.length_append, List.length_take, List.length_replicate]
    omega
  have hword := packWord_congr (getD_append_zeros (b.take 16) (16 - b.length))
  have hpack : pack (b.take 16 ++ List.replicate (16 - b.length) 0) = (List.range 4).map (packWord (b.take 16)) := by
    rw [pack, hlen]
    exact List.map_congr_left fun i _ => hword i
  rw [hpack, keypack_eq]
  rfl

end Sys2Proof.Machine
end

section
/-! PROOFS. The packing commands' completion steps (O34 to O36, O39). -/

namespace Sys2Proof.Machine

theorem exec_eq_of_check_some {i : Instr} {s : State} {e : CmdError} (h : check i s = some e) :
    exec i s = .next (s.failedWith e.code) := by
  rw [exec_eq, h, complete_some]

/-- R89: a command that passes its check completes with its effect, DONE set, and all that is no operand kept. -/
theorem exec_completes {i : Instr} {s : State} (h : check i s = none) :
    exec i s = .next (effectOf i s).finish ∧ s.completedFrom (effectOf i s).finish ∧
      s.sameRest (effectOf i s).finish := by
  obtain ⟨-, -, -, herr, hcode⟩ := effectOf_frame i s
  exact ⟨exec_eq_of_check_none h, ⟨rfl, rfl, herr, hcode⟩, complete_sameRest i none s⟩

theorem check_keyload_eq_none {s : State} : check .keyload s = none ↔ s.byteLength ≤ 4 * s.cfg.nmax :=
  check_pack_eq_none

/-- R92: a length beyond BBUF fails PACK and KEYLOAD with LENGTH_RANGE. -/
theorem check_byteLength_of_long {i : Instr} (hi : i = .pack ∨ i = .keyload) {s : State}
    (h : 4 * s.cfg.nmax < s.byteLength) : check i s = some .lengthRange := by
  rcases hi with rfl | rfl <;> exact if_pos h

/-- R92: a block beyond WBUF fails UNPACK with LENGTH_RANGE. -/
theorem check_unpack_of_long {s : State} (h : s.cfg.nmax < s.blockCount) : check .unpack s = some .lengthRange :=
  if_pos h

/-- R69: NWORDS after PACK, which fits its register for every value of NBYTES. -/
theorem packEffect_nwords_toNat (s : State) : (packEffect s).nwords.toNat = (s.byteLength + 3) / 4 := by
  have hL : s.byteLength < 65536 := s.nbytes.isLt
  simp only [packEffect, State.setNwords_nwords, ceilDiv, BitVec.toNat_ofNat]
  omega

/-- R70: NBYTES after UNPACK of a block that WBUF can hold. -/
theorem unpackEffect_nbytes_toNat {s : State} (hcfg : s.cfg.wf) (hn : s.blockCount ≤ s.cfg.nmax) :
    (unpackEffect s).nbytes.toNat = 4 * s.blockCount := by
  obtain ⟨-, hmax, -⟩ := hcfg
  simp only [unpackEffect, State.setNbytes_nbytes, BitVec.toNat_ofNat]
  omega

/-- R69: the bytes of the words that PACK writes. -/
theorem packEffect_byte (s : State) {i j : Nat} (hi : i < (s.byteLength + 3) / 4) (hj : j < 4) :
    ((packEffect s).wbufAt i).extractLsb' (8 * j) 8 =
      if 4 * i + j < s.byteLength then s.bbufAt (4 * i + j) else 0 := by
  rw [packEffect_wbufAt, if_pos hi, getD_pack_eq_packWord, packWord_byte _ i hj, State.getD_bytes]

/-- R70: the bytes that UNPACK writes. -/
theorem unpackEffect_byte (s : State) {i j : Nat} (hi : i < s.blockCount) (hj : j < 4) :
    (unpackEffect s).bbufAt (4 * i + j) = (s.wbufAt i).extractLsb' (8 * j) 8 := by
  rw [unpackEffect_bbufAt, if_pos (by omega), getD_unpack _ (by rwa [State.length_block]) hj, State.getD_block, if_pos hi]

/-- R71: the bytes of the key that KEYLOAD writes. -/
theorem keyloadEffect_byte (s : State) {i j : Nat} (hi : i < 4) (hj : j < 4) :
    ((keyloadEffect s).key.get (BitVec.ofNat 2 i)).extractLsb' (8 * j) 8 =
      if 4 * i + j < min s.byteLength 16 then s.bbufAt (4 * i + j) else 0 := by
  rw [keyloadEffect, State.setKey_key, keypack_get _ hi, packWord_byte _ i hj, State.take_bytes, State.getD_bytes,
    Nat.min_comm]

/-- Settles O34: the stored words by `packEffect_byte`, the frame by what every completion keeps. -/
theorem packCompletes : Obligations.PackCompletes := by
  refine ⟨rfl, fun s => ⟨fun hL => ?_, fun hL => exec_eq_of_check_some (check_byteLength_of_long (.inl rfl) hL)⟩⟩
  obtain ⟨hexec, hdone, hrest⟩ := exec_completes (check_pack_eq_none.mpr hL)
  refine ⟨_, hexec, fun i j hi hj => packEffect_byte s hi hj, fun i hi => ?_, packEffect_nwords_toNat s, rfl, rfl,
    fun _ => rfl, hdone, hrest⟩
  exact (packEffect_wbufAt s i).trans (if_neg (Nat.not_lt.mpr hi))

/-- Settles O35: the stored bytes by `unpackEffect_byte`, the frame by what every completion keeps. -/
theorem unpackCompletes : Obligations.UnpackCompletes := by
  refine ⟨rfl, fun s hcfg => ⟨fun hn => ?_, fun hn => exec_eq_of_check_some (check_unpack_of_long hn)⟩⟩
  obtain ⟨hexec, hdone, hrest⟩ := exec_completes (check_unpack_eq_none.mpr hn)
  refine ⟨_, hexec, fun i j hi hj => unpackEffect_byte s hi hj, fun j hj => ?_, unpackEffect_nbytes_toNat hcfg hn, rfl,
    rfl, fun _ => rfl, hdone, hrest⟩
  exact (unpackEffect_bbufAt s j).trans (if_neg (Nat.not_lt.mpr hj))

/-- Settles O36: the key by `keyloadEffect_byte`, the frame by what every completion keeps. -/
theorem keyloadCompletes : Obligations.KeyloadCompletes := by
  refine ⟨rfl, fun s => ⟨fun hL => ?_, fun hL => exec_eq_of_check_some (check_byteLength_of_long (.inr rfl) hL)⟩⟩
  obtain ⟨hexec, hdone, hrest⟩ := exec_completes (check_keyload_eq_none.mpr hL)
  exact ⟨_, hexec, fun i j hi hj => keyloadEffect_byte s hi hj, rfl, rfl, fun _ => rfl, fun _ => rfl, hdone, hrest⟩

/-- Settles O39: PACK leaves a block that UNPACK accepts (`packCompletes`), and each byte UNPACK writes
(`unpackCompletes`) is the one PACK put into that word, or the 0 it padded with. -/
theorem packThenUnpack : Obligations.PackThenUnpack := by
  intro s hcfg hL
  obtain ⟨-, hpack⟩ := packCompletes
  obtain ⟨-, hunpack⟩ := unpackCompletes
  obtain ⟨t, htexec, htbyte, -, htwords, -, -, htbbuf, ⟨-, -, hterr, -⟩, htcfg, -⟩ := (hpack s).1 hL
  have hn : t.nwords.toNat ≤ t.cfg.nmax := by rw [htwords, htcfg]; omega
  obtain ⟨u, huexec, hubyte, hupast, hubytes, -, -, -, ⟨-, -, huerr, -⟩, -⟩ := (hunpack t (htcfg ▸ hcfg)).1 hn
  rw [htwords] at hubyte hupast hubytes
  refine ⟨t, u, htexec, huexec, fun k => ?_, hubytes, huerr.trans hterr⟩
  by_cases hk : k < 4 * ((s.nbytes.toNat + 3) / 4)
  · have hword : k / 4 < (s.nbytes.toNat + 3) / 4 := by omega
    have hlane : k % 4 < 4 := Nat.mod_lt _ (by decide)
    have hbyte := (hubyte _ _ hword hlane).trans (htbyte _ _ hword hlane)
    rw [Nat.div_add_mod] at hbyte
    by_cases hkL : k < s.nbytes.toNat
    · rw [hbyte, if_pos hkL, if_neg (by omega)]
    · rw [hbyte, if_neg hkL, if_pos ⟨by omega, hk⟩]
  · rw [hupast k (by omega), htbbuf k, if_neg (by omega)]

end Sys2Proof.Machine
end

section
/-! PROOFS. The cipher's parts: the round count, the key index, the mixing function and the decrypt loop (O40 to O42,
O54). -/

namespace Sys2Proof.Machine

/-! The round count (R74). -/

theorem rounds_eq {n q : Nat} (hlo : q * n ≤ 52) (hhi : 52 < (q + 1) * n) : rounds n = 6 + q :=
  congrArg (6 + ·) (Nat.div_eq_of_lt_le hlo hhi)

theorem rounds_le {n : Nat} (hn : 2 ≤ n) : rounds n ≤ 32 :=
  Nat.add_le_add_left (Nat.div_le_div_left hn (by decide)) 6

/-- Settles O40: 6 is a whole number of `n`ths, and each row of the table is a range of quotients `52 / n`. -/
theorem roundCount : Obligations.RoundCount := by
  refine ⟨fun n hn => ?_, fun n hn => ⟨Nat.le_add_right 6 _, rounds_le hn⟩, rfl, fun n => ⟨?_, ?_, ?_, ?_, ?_, ?_⟩⟩
  · rw [Nat.mul_comm, Nat.mul_add_div hn, rounds]
  · exact fun hlo hhi => rounds_eq (q := 5) (by omega) (by omega)
  · exact fun hlo hhi => rounds_eq (q := 4) (by omega) (by omega)
  · exact fun hlo hhi => rounds_eq (q := 3) (by omega) (by omega)
  · exact fun hlo hhi => rounds_eq (q := 2) (by omega) (by omega)
  · exact fun hlo hhi => rounds_eq (q := 1) (by omega) (by omega)
  · exact fun hlo => rounds_eq (q := 0) (by omega) (by omega)

/-! The key index (R76). -/

theorem kidx_toNat (p : Nat) (e : BitVec 2) : (kidx p e).toNat = (p % 4) ^^^ e.toNat := by
  rw [kidx, BitVec.toNat_xor, BitVec.toNat_ofNat]

/-- Settles O41: `kidx _ e` has period 4 by its number, and reaches `i` at position `i ^ e`. -/
theorem keyIndexWraps : Obligations.KeyIndexWraps := by
  refine fun p e => ⟨kidx_toNat p e, BitVec.eq_of_toNat_eq ?_, fun i => ⟨(i ^^^ e).toNat, (i ^^^ e).isLt, ?_⟩⟩
  · rw [kidx_toNat, kidx_toNat, Nat.add_mod_right]
  · rw [kidx, BitVec.ofNat_toNat, BitVec.setWidth_eq, BitVec.xor_assoc, BitVec.xor_self, BitVec.xor_zero]

/-- Settles O54: each operation of `mx` by its number, the key word by `get_kidx`. -/
theorem mixingFunction : Obligations.MixingFunction := by
  intro k y z sum p e
  simp only [mx, get_kidx, BitVec.toNat_xor, BitVec.toNat_add, BitVec.toNat_ushiftRight, BitVec.toNat_shiftLeft,
    Nat.shiftRight_eq_div_pow, Nat.shiftLeft_eq, Nat.reducePow]

/-! The loop of decryption (R79, R80). -/

/-- The loop's test fails on the sum of no round. -/
theorem decryptWhile_zero (k : Key) (n fuel : Nat) (st : Pass) :
    decryptWhile k n fuel (BitVec.ofNat 32 0 * DELTA) st = st.1 := by
  cases fuel with
  | zero => rfl
  | succ fuel => rw [decryptWhile, if_pos (BitVec.zero_mul)]

/-- The loop takes the pass of the sum of `r + 1` rounds, and goes on with that of `r`. -/
theorem decryptWhile_succ (k : Key) (n fuel : Nat) {r : Nat} (hr : r + 1 ≤ 32) (st : Pass) :
    decryptWhile k n (fuel + 1) (BitVec.ofNat 32 (r + 1) * DELTA) st =
      decryptWhile k n fuel (BitVec.ofNat 32 r * DELTA) (decryptRound k (BitVec.ofNat 32 (r + 1) * DELTA) n st) := by
  rw [decryptWhile, if_neg (sum_ne_zero (Nat.le_add_left 1 r) hr), sum_pred (Nat.le_add_left 1 r), Nat.add_sub_cancel]

/-- From the sum of `r` rounds the loop makes `r` passes, whatever fuel it does not need. -/
theorem decryptWhile_eq_foldl (k : Key) (n : Nat) {r fuel : Nat} (hr : r ≤ 32) (hfuel : r < fuel) (st : Pass) :
    decryptWhile k n fuel (BitVec.ofNat 32 r * DELTA) st =
      ((List.range r).foldl (fun st i => decryptRound k (BitVec.ofNat 32 (r - i) * DELTA) n st) st).1 := by
  induction r generalizing fuel st with
  | zero => exact decryptWhile_zero k n fuel st
  | succ r ih =>
    obtain ⟨fuel, rfl⟩ := Nat.exists_eq_add_one_of_ne_zero (Nat.ne_zero_of_lt hfuel)
    rw [decryptWhile_succ k n fuel hr, ih (by omega) (by omega), List.range_succ_eq_map, List.foldl_cons,
      List.foldl_map]
    simp only [Nat.succ_eq_add_one, Nat.add_sub_add_right, Nat.sub_zero]

/-- Settles O42: a block of two words or more has at most 32 rounds. -/
theorem decryptLoopCountsRounds : Obligations.DecryptLoopCountsRounds :=
  fun k n _ st hn hfuel => decryptWhile_eq_foldl k n (rounds_le hn) hfuel st

end Sys2Proof.Machine
end

section
/-! PROOFS. The cipher as one sequence of updates, each of which has an inverse, and the references (O43 to O45). -/

namespace Sys2Proof.Machine

/-! One update of the block. The word that `encryptStep` and `decryptStep` carry is a neighbour of the position, so an
update can read it from the block. -/

/-- Position `p` of a round: `op`, plus or minus, of the mix of its two neighbours as they stand (R78, R79). -/
def updateAt (op : Word → Word → Word) (k : Key) (sum : Word) (n : Nat) (v : List Word) (p : Nat) : List Word :=
  v.set p (op (v.getD p 0) (mx k (v.getD ((p + 1) % n) 0) (v.getD ((p + n - 1) % n) 0) sum p (selector sum)))

/-- A fold of steps on the block alone that each keep its length keeps it. -/
theorem length_foldl_keeps {f : List Word → Nat → List Word} (hf : ∀ v g, (f v g).length = v.length) (gs : List Nat)
    (v : List Word) : (gs.foldl f v).length = v.length := by
  induction gs generalizing v with
  | nil => rfl
  | cons g gs ih => rw [List.foldl_cons, ih, hf]

section Update
variable (op : Word → Word → Word) (k : Key) (sum : Word) (n : Nat) (v : List Word) {p : Nat}

@[simp] theorem length_updateAt (p : Nat) : (updateAt op k sum n v p).length = v.length := List.length_set

@[simp] theorem length_foldl_updateAt (ps : List Nat) : (ps.foldl (updateAt op k sum n) v).length = v.length :=
  length_foldl_keeps (length_updateAt op k sum n) ps v

theorem getD_updateAt (hp : p < v.length) (i : Nat) :
    (updateAt op k sum n v p).getD i 0 =
      if i = p then
        op (v.getD p 0) (mx k (v.getD ((p + 1) % n) 0) (v.getD ((p + n - 1) % n) 0) sum p (selector sum))
      else v.getD i 0 := by
  rw [updateAt, List.getD_eq_getElem?_getD, List.getElem?_set]
  by_cases hi : p = i
  · subst hi
    rw [if_pos rfl, if_pos hp, if_pos rfl, Option.getD_some]
  · rw [if_neg hi, if_neg (Ne.symm hi), ← List.getD_eq_getElem?_getD]

end Update

/-- The position before the first one is the last one. -/
theorem prev_zero {n : Nat} (hn : 0 < n) : (0 + n - 1) % n = n - 1 := by
  rw [Nat.zero_add, Nat.mod_eq_of_lt (Nat.sub_one_lt_of_lt hn)]

theorem prev_succ {n p : Nat} (hp : p < n) : (p + 1 + n - 1) % n = p := by
  rw [Nat.add_right_comm, Nat.add_sub_cancel, Nat.add_mod_right, Nat.mod_eq_of_lt hp]

/-- In a block of two words or more neither neighbour of a position is the position itself. -/
theorem neighbours_ne {n p : Nat} (hn : 2 ≤ n) (hp : p < n) : (p + 1) % n ≠ p ∧ (p + n - 1) % n ≠ p := by
  constructor
  · rcases Nat.lt_or_eq_of_le (Nat.succ_le_of_lt hp) with h | h
    · rw [Nat.mod_eq_of_lt h]
      omega
    · rw [← h, Nat.mod_self]
      omega
  · cases p with
    | zero =>
      rw [prev_zero hp]
      omega
    | succ p =>
      rw [prev_succ (Nat.lt_of_succ_lt hp)]
      omega

/-- An update reads its mix beside the word it writes, so the opposite operation takes it back (R81). -/
theorem updateAt_updateAt {op op' : Word → Word → Word} (hop : ∀ a m, op' (op a m) m = a) (k : Key) (sum : Word)
    {n : Nat} (hn : 2 ≤ n) {v : List Word} (hv : v.length = n) {p : Nat} (hp : p < n) :
    updateAt op' k sum n (updateAt op k sum n v p) p = v := by
  obtain ⟨hnext, hprev⟩ := neighbours_ne hn hp
  have hpv : p < v.length := hv.symm ▸ hp
  refine list_ext_getD 0 (by simp only [length_updateAt]) fun i _ => ?_
  rw [getD_updateAt _ _ _ _ _ (by rwa [length_updateAt])]
  simp only [getD_updateAt op k sum n v hpv, if_neg hnext, if_neg hprev, if_true, hop]
  split
  · next hi => rw [hi]
  · rfl

/-! A round is the updates of its positions, and carries on the word that the next round begins with. -/

theorem encryptStep_eq_updateAt (k : Key) (sum : Word) (n : Nat) (v : List Word) {p : Nat} (hp : p < v.length) :
    encryptStep k sum n (v, v.getD ((p + n - 1) % n) 0) p =
      (updateAt (· + ·) k sum n v p, (updateAt (· + ·) k sum n v p).getD p 0) := by
  rw [getD_updateAt _ _ _ _ _ hp, if_pos rfl]
  rfl

theorem decryptStep_eq_updateAt (k : Key) (sum : Word) {n : Nat} {v : List Word} (hv : v.length = n) {p : Nat}
    (hp : p < n) :
    decryptStep k sum n (v, v.getD ((p + 1) % n) 0) p =
      (updateAt (· - ·) k sum n v p, (updateAt (· - ·) k sum n v p).getD p 0) := by
  have hz : (if p > 0 then v.getD (p - 1) 0 else v.getD (n - 1) 0) = v.getD ((p + n - 1) % n) 0 := by
    cases p with
    | zero => rw [if_neg (by decide), prev_zero hp]
    | succ p => rw [if_pos (Nat.succ_pos p), prev_succ (Nat.lt_of_succ_lt hp), Nat.add_sub_cancel]
  rw [getD_updateAt _ _ _ _ _ (hv.symm ▸ hp), if_pos rfl, decryptStep, hz]
  rfl

/-- The first `m` positions of an encryption round. -/
theorem foldl_encryptStep (k : Key) (sum : Word) {n : Nat} (hn : 0 < n) {v : List Word} (hv : v.length = n) {m : Nat}
    (hm : m ≤ n) :
    (List.range m).foldl (encryptStep k sum n) (v, v.getD (n - 1) 0) =
      ((List.range m).foldl (updateAt (· + ·) k sum n) v,
        ((List.range m).foldl (updateAt (· + ·) k sum n) v).getD ((m + n - 1) % n) 0) := by
  induction m with
  | zero =>
    rw [prev_zero hn]
    rfl
  | succ m ih =>
    rw [List.range_succ, List.foldl_append, List.foldl_append, ih (Nat.le_of_succ_le hm), List.foldl_cons,
      List.foldl_cons, List.foldl_nil, List.foldl_nil,
      encryptStep_eq_updateAt _ _ _ _ (by rwa [length_foldl_updateAt, hv]), prev_succ hm]

/-- The positions of a decryption pass below `m`, the last ones it visits. -/
theorem foldl_decryptStep (k : Key) (sum : Word) {n : Nat} {v : List Word} (hv : v.length = n) {m : Nat} (hm : m ≤ n) :
    (List.range m).reverse.foldl (decryptStep k sum n) (v, v.getD (m % n) 0) =
      ((List.range m).reverse.foldl (updateAt (· - ·) k sum n) v,
        ((List.range m).reverse.foldl (updateAt (· - ·) k sum n) v).getD 0 0) := by
  induction m generalizing v with
  | zero =>
    rw [Nat.zero_mod]
    rfl
  | succ m ih =>
    rw [List.range_succ, List.reverse_append, List.reverse_singleton, List.singleton_append, List.foldl_cons,
      List.foldl_cons, decryptStep_eq_updateAt k sum hv hm,
      ← ih ((length_updateAt ..).trans hv) (Nat.le_of_succ_le hm), Nat.mod_eq_of_lt hm]

theorem encryptRound_eq_foldl (k : Key) (sum : Word) {n : Nat} (hn : 0 < n) {v : List Word} (hv : v.length = n) :
    encryptRound k sum n (v, v.getD (n - 1) 0) =
      ((List.range n).foldl (updateAt (· + ·) k sum n) v,
        ((List.range n).foldl (updateAt (· + ·) k sum n) v).getD (n - 1) 0) := by
  rw [encryptRound, foldl_encryptStep k sum hn hv (Nat.le_refl n), Nat.add_sub_assoc hn, Nat.add_mod_left,
    Nat.mod_eq_of_lt (Nat.sub_one_lt_of_lt hn)]

theorem decryptRound_eq_foldl (k : Key) (sum : Word) {n : Nat} {v : List Word} (hv : v.length = n) :
    decryptRound k sum n (v, v.getD 0 0) =
      ((List.range n).reverse.foldl (updateAt (· - ·) k sum n) v,
        ((List.range n).reverse.foldl (updateAt (· - ·) k sum n) v).getD 0 0) := by
  rw [← foldl_decryptStep k sum hv (Nat.le_refl n), Nat.mod_self, decryptRound]

/-! The updates of all rounds, numbered through. -/

/-- Update number `g` of a block: position `g mod n` of round `g / n + 1`, whose sum is `(g / n + 1) * DELTA` (R78). -/
def numberedUpdate (op : Word → Word → Word) (k : Key) (n : Nat) (v : List Word) (g : Nat) : List Word :=
  updateAt op k (BitVec.ofNat 32 (g / n + 1) * DELTA) n v (g % n)

@[simp] theorem length_numberedUpdate (op : Word → Word → Word) (k : Key) (n : Nat) (v : List Word) (g : Nat) :
    (numberedUpdate op k n v g).length = v.length := length_updateAt ..

/-- The updates of positions of one round, whose number counts from 0. -/
theorem foldl_numberedUpdate_round (op : Word → Word → Word) (k : Key) {n : Nat} (r : Nat) (v : List Word)
    {ps : List Nat} (hps : ∀ p ∈ ps, p < n) :
    (ps.map (r * n + ·)).foldl (numberedUpdate op k n) v =
      ps.foldl (updateAt op k (BitVec.ofNat 32 (r + 1) * DELTA) n) v := by
  rw [List.foldl_map]
  refine List.foldl_ext _ _ _ fun v p hp => ?_
  have hpn := hps p hp
  rw [numberedUpdate, Nat.mul_comm, Nat.mul_add_div (Nat.zero_lt_of_lt hpn), Nat.div_eq_of_lt hpn, Nat.add_zero,
    Nat.mul_add_mod, Nat.mod_eq_of_lt hpn]

/-- `r` rounds of encryption after the first `q`: the updates numbered from `q * n` on. -/
theorem encryptRounds_eq_foldl (k : Key) {n : Nat} (hn : 0 < n) (r q : Nat) {v : List Word} (hv : v.length = n) :
    encryptRounds k n r (BitVec.ofNat 32 q * DELTA) (v, v.getD (n - 1) 0) =
      (List.range' (q * n) (r * n)).foldl (numberedUpdate (· + ·) k n) v := by
  induction r generalizing q v with
  | zero =>
    rw [Nat.zero_mul]
    rfl
  | succ r ih =>
    have hsum : BitVec.ofNat 32 q * DELTA + DELTA = BitVec.ofNat 32 (q + 1) * DELTA := by
      rw [BitVec.ofNat_add, BitVec.add_mul, BitVec.one_mul]
    rw [encryptRounds, hsum, encryptRound_eq_foldl k _ hn hv, ih (q + 1) ((length_foldl_updateAt ..).trans hv),
      ← foldl_numberedUpdate_round _ k q v fun p => List.mem_range.mp, ← List.foldl_append, ← List.range'_eq_map_range,
      Nat.succ_mul q n, List.range'_append_1, Nat.succ_mul r n, Nat.add_comm n]

/-- The decrypt loop from the sum of `r` rounds: the updates of those rounds, the last one first. -/
theorem decryptWhile_eq_foldl_updates (k : Key) {n r fuel : Nat} (hr : r ≤ 32) (hfuel : r < fuel) {v : List Word}
    (hv : v.length = n) :
    decryptWhile k n fuel (BitVec.ofNat 32 r * DELTA) (v, v.getD 0 0) =
      (List.range (r * n)).reverse.foldl (numberedUpdate (· - ·) k n) v := by
  induction r generalizing fuel v with
  | zero =>
    rw [decryptWhile_zero, Nat.zero_mul]
    rfl
  | succ r ih =>
    obtain ⟨fuel, rfl⟩ := Nat.exists_eq_add_one_of_ne_zero (Nat.ne_zero_of_lt hfuel)
    rw [decryptWhile_succ k n fuel hr, decryptRound_eq_foldl k _ hv,
      ih (by omega) (by omega) ((length_foldl_updateAt ..).trans hv), Nat.succ_mul, List.range_add, List.reverse_append,
      List.foldl_append, ← List.map_reverse,
      foldl_numberedUpdate_round _ k r v fun p hp => List.mem_range.mp (List.mem_reverse.mp hp)]

/-- R78: teaEncrypt is its updates, in the order of their numbers. -/
theorem teaEncrypt_eq_foldl (k : Key) {v : List Word} (hv : 0 < v.length) :
    teaEncrypt k v = (List.range (rounds v.length * v.length)).foldl (numberedUpdate (· + ·) k v.length) v := by
  have h := encryptRounds_eq_foldl k hv (rounds v.length) 0 rfl
  rwa [BitVec.zero_mul, Nat.zero_mul, ← List.range_eq_range'] at h

/-- R79, R80: teaDecrypt is the opposite updates, in the reverse order. -/
theorem teaDecrypt_eq_foldl (k : Key) {v : List Word} (hv : 2 ≤ v.length) :
    teaDecrypt k v =
      (List.range (rounds v.length * v.length)).reverse.foldl (numberedUpdate (· - ·) k v.length) v :=
  decryptWhile_eq_foldl_updates k (rounds_le hv) (Nat.lt_succ_self _) rfl

/-! The round trips (R81). -/

/-- Opposite updates in the reverse order take a sequence of updates back. -/
theorem foldl_reverse_numberedUpdate {op op' : Word → Word → Word} (hop : ∀ a m, op' (op a m) m = a) (k : Key)
    {n : Nat} (hn : 2 ≤ n) (gs : List Nat) {v : List Word} (hv : v.length = n) :
    gs.reverse.foldl (numberedUpdate op' k n) (gs.foldl (numberedUpdate op k n) v) = v := by
  induction gs generalizing v with
  | nil => rfl
  | cons g gs ih =>
    rw [List.foldl_cons, List.reverse_cons, List.foldl_append, ih ((length_numberedUpdate ..).trans hv)]
    exact updateAt_updateAt hop k _ hn hv (Nat.mod_lt g (Nat.zero_lt_of_lt hn))

theorem teaDecrypt_teaEncrypt (k : Key) {v : List Word} (hv : 2 ≤ v.length) : teaDecrypt k (teaEncrypt k v) = v := by
  rw [teaDecrypt_eq_foldl k (by rwa [length_teaEncrypt]), length_teaEncrypt, teaEncrypt_eq_foldl k (by omega)]
  exact foldl_reverse_numberedUpdate BitVec.add_sub_cancel k hv _ rfl

theorem teaEncrypt_teaDecrypt (k : Key) {v : List Word} (hv : 2 ≤ v.length) : teaEncrypt k (teaDecrypt k v) = v := by
  have h := foldl_reverse_numberedUpdate BitVec.sub_add_cancel k hv
    (List.range (rounds v.length * v.length)).reverse rfl
  rwa [List.reverse_reverse, ← teaDecrypt_eq_foldl k hv, ← length_teaDecrypt k v,
    ← teaEncrypt_eq_foldl k (by rw [length_teaDecrypt]; omega)] at h

/-- Settles O45: each function is a sequence of updates and the other one takes it back, update by update. -/
theorem teaDecryptInvertsTeaEncrypt : Obligations.TeaDecryptInvertsTeaEncrypt :=
  fun k _ hv => ⟨teaDecrypt_teaEncrypt k hv, teaEncrypt_teaDecrypt k hv⟩

/-! The references (R78, R79). -/

/-- R75 to R77: the reference's mix is the model's with the round's own selector. -/
theorem reference_mix (k : Key) (y z sum : Word) (p : Nat) :
    Reference.mix k y z sum p = mx k y z sum p (selector sum) := by
  rw [mx, get_kidx, selector_toNat, Reference.mix]

/-- An update in the references' terms: `op` of the mix at its position, and every other word as it was. -/
theorem getD_numberedUpdate (op : Word → Word → Word) (k : Key) {n : Nat} (hn : 0 < n) {v : List Word}
    (hv : v.length = n) (g i : Nat) :
    (numberedUpdate op k n v g).getD i 0 =
      if i = g % n then
        op (v.getD (g % n) 0)
          (Reference.mix k (v.getD ((g % n + 1) % n) 0) (v.getD ((g % n + n - 1) % n) 0)
            (BitVec.ofNat 32 (g / n + 1) * DELTA) (g % n))
      else v.getD i 0 := by
  rw [reference_mix]
  exact getD_updateAt op k _ n v (hv.symm ▸ Nat.mod_lt g hn) i

/-- The block after its first `m` updates is the reference's array. -/
theorem getD_foldl_eq_reference_encrypt (k : Key) {n : Nat} (hn : 0 < n) {v : List Word} (hv : v.length = n)
    (m i : Nat) :
    ((List.range m).foldl (numberedUpdate (· + ·) k n) v).getD i 0 =
      Reference.encrypt k n (fun j => v.getD j 0) m i := by
  induction m generalizing i with
  | zero => rfl
  | succ m ih =>
    have hlen := (length_foldl_keeps (length_numberedUpdate (· + ·) k n) (List.range m) v).trans hv
    rw [List.range_succ, List.foldl_append, List.foldl_cons, List.foldl_nil, getD_numberedUpdate _ k hn hlen]
    simp only [ih]
    rfl

/-- Update `m` from the end of `r` rounds has the position and the round of the reference's update `m` in decryption. -/
theorem div_mod_from_end {n r m : Nat} (hm : m < r * n) :
    (r * n - 1 - m) % n = n - 1 - m % n ∧ (r * n - 1 - m) / n + 1 = r - m / n := by
  have hm' : m < n * r := Nat.mul_comm r n ▸ hm
  have hdiv : m / n < r := Nat.div_lt_of_lt_mul hm'
  rw [Nat.mul_comm r n, Nat.sub_sub, Nat.add_comm 1 m, Nat.mul_sub_mod hm', Nat.mul_sub_div m n r hm']
  omega

/-- The block after the last `m` of `r` rounds' updates, taken back one by one, is the reference's array. -/
theorem getD_foldl_eq_reference_decrypt (k : Key) {n : Nat} (hn : 0 < n) {v : List Word} (hv : v.length = n) {m : Nat}
    (hm : m ≤ rounds n * n) (i : Nat) :
    (((List.range m).map (rounds n * n - 1 - ·)).foldl (numberedUpdate (· - ·) k n) v).getD i 0 =
      Reference.decrypt k n (fun j => v.getD j 0) m i := by
  induction m generalizing i with
  | zero => rfl
  | succ m ih =>
    have hlen := (length_foldl_keeps (length_numberedUpdate (· - ·) k n)
      ((List.range m).map (rounds n * n - 1 - ·)) v).trans hv
    obtain ⟨hpos, hround⟩ := div_mod_from_end hm
    rw [List.range_succ, List.map_append, List.foldl_append, List.map_singleton, List.foldl_cons, List.foldl_nil,
      getD_numberedUpdate _ k hn hlen, hpos, hround]
    simp only [ih (Nat.le_of_succ_le hm)]
    rfl

/-- Settles O43: teaEncrypt is `rounds(n) * n` updates, and each is the reference's. -/
theorem teaEncryptMeetsReference : Obligations.TeaEncryptMeetsReference := by
  intro k v hv
  have hn : 0 < v.length := Nat.zero_lt_of_lt hv
  refine ⟨length_teaEncrypt k v, fun i _ => ?_⟩
  rw [teaEncrypt_eq_foldl k hn]
  exact getD_foldl_eq_reference_encrypt k hn rfl _ i

/-- Settles O44: teaDecrypt is `rounds(n) * n` updates from the last one on, and each is the reference's. -/
theorem teaDecryptMeetsReference : Obligations.TeaDecryptMeetsReference := by
  intro k v hv
  refine ⟨length_teaDecrypt k v, fun i _ => ?_⟩
  rw [teaDecrypt_eq_foldl k hv, List.range_eq_range', List.reverse_range', Nat.zero_add]
  exact getD_foldl_eq_reference_decrypt k (Nat.zero_lt_of_lt hv) rfl (Nat.le_refl _) i

end Sys2Proof.Machine
end

section
/-! PROOFS. The cipher commands' completion steps, and the two as inverses on the device (O46 to O48). -/

namespace Sys2Proof.Machine

/-- The two cipher commands, each with the function it applies to the block (R83, R84). -/
inductive IsCipher : Instr → (Key → List Word → List Word) → Prop where
  | encrypt : IsCipher .encrypt teaEncrypt
  | decrypt : IsCipher .decrypt teaDecrypt

/-- What R83 and R84 say in common of a completed command that applies `tea`: the block becomes its `tea` under KEY, and
nothing else but the report changes. -/
def CipheredBy (tea : Key → List Word → List Word) (s t : State) : Prop :=
  (∀ i, i < s.nwords.toNat → t.wbufAt i = (tea s.key (s.block s.nwords.toNat)).getD i 0) ∧
    (∀ i, s.nwords.toNat ≤ i → t.wbufAt i = s.wbufAt i) ∧ t.nwords = s.nwords ∧ t.nbytes = s.nbytes ∧ t.key = s.key ∧
    (∀ j, t.bbufAt j = s.bbufAt j) ∧ s.completedFrom t ∧ s.sameRest t

section Cipher
variable {i : Instr} {tea : Key → List Word → List Word} (h : IsCipher i tea) {s : State}
include h

theorem IsCipher.length_tea (k : Key) (v : List Word) : (tea k v).length = v.length := by
  cases h with
  | encrypt => exact length_teaEncrypt k v
  | decrypt => exact length_teaDecrypt k v

theorem IsCipher.check_eq_none : check i s = none ↔ s.blockCount ≤ s.cfg.nmax ∧ 2 ≤ s.blockCount := by
  cases h with
  | encrypt => exact check_encrypt_eq_none
  | decrypt => exact check_decrypt_eq_none

/-- R92: a block beyond WBUF fails with LENGTH_RANGE. -/
theorem IsCipher.check_of_long (hn : s.cfg.nmax < s.blockCount) : check i s = some .lengthRange := by
  cases h <;> exact if_pos hn

/-- R92: a block of fewer than two words, which no legal capacity makes too long, fails with SHORT_BLOCK. -/
theorem IsCipher.check_of_short (hcfg : s.cfg.wf) (hn : s.blockCount < 2) : check i s = some .shortBlock := by
  obtain ⟨hmin, -⟩ := hcfg
  have hfits : ¬ s.blockCount > s.cfg.nmax := by omega
  cases h <;> exact (if_neg hfits).trans (if_pos hn)

theorem IsCipher.effect_wbufAt (j : Nat) :
    (effectOf i s).wbufAt j =
      if j < s.blockCount then (tea s.key (s.block s.blockCount)).getD j 0 else s.wbufAt j := by
  cases h with
  | encrypt => rw [effectOf_encrypt, encryptEffect_wbufAt]
  | decrypt => rw [effectOf_decrypt, decryptEffect_wbufAt]

/-- No cipher command writes a length, the key or BBUF (R60). -/
theorem IsCipher.effect_keeps :
    (effectOf i s).nwords = s.nwords ∧ (effectOf i s).nbytes = s.nbytes ∧ (effectOf i s).key = s.key ∧
      (effectOf i s).bbuf = s.bbuf := by
  obtain ⟨hnwords, hbytes, hkey, -⟩ := effectOf_keeps i s
  cases h with
  | encrypt | decrypt => exact ⟨hnwords nofun, (hbytes nofun).1, hkey nofun, (hbytes nofun).2⟩

/-- A cipher command completes on a block of 2 to NMAX words (R83, R84). -/
theorem IsCipher.completes (hmin : 2 ≤ s.nwords.toNat) (hmax : s.nwords.toNat ≤ s.cfg.nmax) :
    ∃ t : State, exec i s = .next t ∧ CipheredBy tea s t := by
  obtain ⟨hexec, hdone, hrest⟩ := exec_completes (h.check_eq_none.mpr ⟨hmax, hmin⟩)
  obtain ⟨hnwords, hnbytes, hkey, hbbuf⟩ := h.effect_keeps (s := s)
  obtain ⟨⟨_, _, _, _, hdraw, _⟩, _⟩ := effectOf_frame i s
  refine ⟨_, hexec, fun j hj => ?_, fun j hj => ?_, hnwords, hnbytes, hkey, State.bbufAt_congr hbbuf hdraw, hdone,
    hrest⟩
  · rw [State.finish_wbufAt, h.effect_wbufAt]
    exact if_pos hj
  · rw [State.finish_wbufAt, h.effect_wbufAt]
    exact if_neg (Nat.not_lt.mpr hj)

end Cipher

/-- Settles O46: ENCRYPT is the cipher command of teaEncrypt. -/
theorem encryptCompletes : Obligations.EncryptCompletes :=
  ⟨rfl, fun _ hcfg => ⟨IsCipher.encrypt.completes, fun hn => exec_eq_of_check_some (IsCipher.encrypt.check_of_long hn),
    fun hn => exec_eq_of_check_some (IsCipher.encrypt.check_of_short hcfg hn)⟩⟩

/-- Settles O47: DECRYPT is the cipher command of teaDecrypt. -/
theorem decryptCompletes : Obligations.DecryptCompletes :=
  ⟨rfl, fun _ hcfg => ⟨IsCipher.decrypt.completes, fun hn => exec_eq_of_check_some (IsCipher.decrypt.check_of_long hn),
    fun hn => exec_eq_of_check_some (IsCipher.decrypt.check_of_short hcfg hn)⟩⟩

/-! The two commands one after the other (R81). -/

/-- The block after a cipher command, as the next command reads it. -/
theorem CipheredBy.block {i : Instr} {tea : Key → List Word → List Word} (h : IsCipher i tea) {s t : State}
    (ht : CipheredBy tea s t) : t.block s.nwords.toNat = tea s.key (s.block s.nwords.toNat) := by
  obtain ⟨hwords, -⟩ := ht
  refine list_ext_getD 0 (by rw [h.length_tea, State.length_block, State.length_block]) fun j hj => ?_
  rw [State.length_block] at hj
  rw [State.getD_block, if_pos hj, hwords j hj]

/-- Two cipher commands whose functions are inverse restore every operand. -/
theorem IsCipher.then_inverse {i i' : Instr} {tea tea' : Key → List Word → List Word} (h : IsCipher i tea)
    (h' : IsCipher i' tea') (hinv : ∀ (k : Key) (v : List Word), 2 ≤ v.length → tea' k (tea k v) = v) {s : State}
    (hmin : 2 ≤ s.nwords.toNat) (hmax : s.nwords.toNat ≤ s.cfg.nmax) :
    ∃ t u : State, exec i s = .next t ∧ exec i' t = .next u ∧ s.sameOperands u := by
  obtain ⟨t, htexec, ht⟩ := h.completes hmin hmax
  have hblock := ht.block h
  obtain ⟨-, htpast, htnwords, htnbytes, htkey, htbbuf, -, htcfg, -⟩ := ht
  obtain ⟨u, huexec, huwords, hupast, hunwords, hunbytes, hukey, hubbuf, -⟩ :=
    h'.completes (s := t) (htnwords ▸ hmin) (htnwords ▸ htcfg ▸ hmax)
  rw [htnwords, htkey, hblock, hinv s.key _ (by rwa [State.length_block])] at huwords
  rw [htnwords] at hupast
  refine ⟨t, u, htexec, huexec, hunwords.trans htnwords, hunbytes.trans htnbytes, hukey.trans htkey,
    fun j => (hubbuf j).trans (htbbuf j), fun j => ?_⟩
  rcases Nat.lt_or_ge j s.nwords.toNat with hj | hj
  · rw [huwords j hj, State.getD_block, if_pos hj]
  · rw [hupast j hj, htpast j hj]

/-- Settles O48: teaEncrypt and teaDecrypt are inverse in both orders. -/
theorem decryptUndoesEncryptOnDevice : Obligations.DecryptUndoesEncryptOnDevice :=
  fun _ hmin hmax =>
    ⟨IsCipher.encrypt.then_inverse .decrypt (fun k _ => teaDecrypt_teaEncrypt k) hmin hmax,
      IsCipher.decrypt.then_inverse .encrypt (fun k _ => teaEncrypt_teaDecrypt k) hmin hmax⟩

end Sys2Proof.Machine
end

section
/-! PROOFS. Issue, bus errors, the engine's turn and completion (O9 to O13, O21). -/

namespace Sys2Proof.Machine

/-- Settles O9: the write of CMD is `State.issue`. -/
theorem commandWriteIssues : Obligations.CommandWriteIssues := by
  intro s rest v hr hidle hi
  exact step_write_register hr (r := .cmd) rfl (.inl hidle) hi

/-- Settles O21: what is illegal is not permitted, so each access takes its bus-error branch. -/
theorem busErrorChangesNothing : Obligations.BusErrorChangesNothing := by
  intro s rest addr off size v hr ho hlegal
  have hp := permitted_of_illegal hlegal
  exact ⟨step_read_refused hr ho hp, step_write_refused hr ho hp⟩

/-- Settles O10: taking the event moves neither the reset pin, nor ENG, nor CMDL. -/
theorem engineTurnRunsDecodedCommand : Obligations.EngineTurnRunsDecodedCommand := by
  intro s hr hb hnext
  have hturn : engineTurn s.takeEvent = exec (decode s.cmdl) s.takeEvent := engineTurn_run (s := s.takeEvent) hr hb
  exact (step_engineIsNext hnext).trans hturn

/-- Settles O11: the turn of an engine that waits leaves the state with the event taken. -/
theorem engineIdleTakesNoStep : Obligations.EngineIdleTakesNoStep := by
  intro s hwait hnext
  have hturn : engineTurn s.takeEvent = .next s.takeEvent := engineTurn_wait (s := s.takeEvent) hwait
  exact (step_engineIsNext hnext).trans hturn

/-- Settles O12: each of the things a step can do answers a next state, a completion step by `exec_eq`. -/
theorem stepNeverStops : Obligations.StepNeverStops := by
  intro s
  rcases step_cases s with ⟨_, _, _, he⟩ | ⟨_, _, he⟩ | ⟨_, _, _, _, he⟩ | ⟨_, _, _, _, he⟩ | ⟨_, _, he⟩ | ⟨_, _, he⟩
  · exact ⟨_, he.trans (exec_eq _ _)⟩
  all_goals exact ⟨_, he⟩

/-- Settles O13: every meaning is one `complete`, whose report `complete_report` gives. -/
theorem completionWritesStatus : Obligations.CompletionWritesStatus := by
  intro i s
  obtain ⟨herr, hcode⟩ := complete_report i (check i s) s
  refine ⟨_, exec_eq i s, complete_eng .., complete_done .., fun h => ?_, fun e h => ?_⟩
  · rw [herr, hcode, h]
    exact ⟨rfl, rfl⟩
  · rw [herr, hcode, h]
    exact ⟨rfl, rfl⟩

end Sys2Proof.Machine
end

section
/-! PROOFS. The report of a failed command, and that it is all a failed command changes (O31, O32). -/

namespace Sys2Proof.Machine

/-- The code that a completion step writes over a clear report: 0 for success (60_exceptions.md R91). -/
def errorCode (failed : Option CmdError) : BitVec 4 := (failed.map CmdError.code).getD 0

/-- R89: over a clear report a completion step leaves the code of its check, and ERR exactly when that is not 0. -/
theorem exec_report {i : Instr} {s t : State} (herr : s.err = false) (hcode : s.errcode = 0)
    (h : exec i s = .next t) : t.errcode = errorCode (check i s) ∧ (t.err = true ↔ t.errcode ≠ 0) := by
  rw [exec_eq] at h
  cases h
  obtain ⟨herr', hcode'⟩ := complete_report i (check i s) s
  rw [herr', hcode', herr, hcode]
  cases check i s with
  | none => exact ⟨rfl, by simp⟩
  | some e => exact ⟨rfl, by simp [code_ne_zero e]⟩

/-! The code of each kind of operation, by its length (R92). -/

theorem errorCode_check_bytes {i : Instr} (hi : i = .pack ∨ i = .keyload) (s : State) :
    errorCode (check i s) = if s.nbytes.toNat > 4 * s.cfg.nmax then 2 else 0 := by
  have hcheck : check i s = if s.nbytes.toNat > 4 * s.cfg.nmax then some .lengthRange else none := by
    rcases hi with rfl | rfl <;> rfl
  rw [hcheck]
  split <;> rfl

theorem errorCode_check_unpack (s : State) :
    errorCode (check .unpack s) = if s.nwords.toNat > s.cfg.nmax then 2 else 0 := by
  have hcheck : check .unpack s = if s.nwords.toNat > s.cfg.nmax then some .lengthRange else none := rfl
  rw [hcheck]
  split <;> rfl

theorem errorCode_check_cipher {i : Instr} (hi : i = .encrypt ∨ i = .decrypt) (s : State) :
    errorCode (check i s) = if s.nwords.toNat > s.cfg.nmax then 2 else if s.nwords.toNat < 2 then 3 else 0 := by
  have hcheck : check i s =
      if s.nwords.toNat > s.cfg.nmax then some .lengthRange
      else if s.nwords.toNat < 2 then some .shortBlock else none := by
    rcases hi with rfl | rfl <;> rfl
  rw [hcheck]
  split
  · rfl
  · split <;> rfl

/-- Settles O31: a word that is no operation's fails as a reserved one, and each operation's word by its length. -/
theorem errorCodePriority : Obligations.ErrorCodePriority := by
  intro c s t herr hcode h
  obtain ⟨hcode', herr'⟩ := exec_report herr hcode h
  refine ⟨hcode'.trans ?_, herr'⟩
  by_cases hop : decode c ∈ operations
  · have hword : c = encode (decode c) := (encode_decode c).symm
    simp only [operations, List.mem_cons, List.not_mem_nil, or_false] at hop
    rcases hop with hi | hi | hi | hi | hi <;> rw [hi] at hword ⊢ <;> subst hword
    · simp [errorCode_check_bytes, encode]
    · simp [errorCode_check_unpack, encode]
    · simp [errorCode_check_bytes, encode]
    · simp [errorCode_check_cipher, encode]
    · simp [errorCode_check_cipher, encode]
  · have hword : c ∉ [0x00000001, 0x00000002, 0x00000003, 0x00000004, 0x00000005] :=
      mt (decode_mem_operations_iff c).mpr hop
    rw [check_reserved hop, if_pos hword]
    rfl

/-- Settles O32: the run gives what the completion step taken at once would (O17), and that is the report alone. An
issue changes no length, so the check fails at the completion as it does at the issue. -/
theorem failedCommandChangesOnlyStatus : Obligations.FailedCommandChangesOnlyStatus := by
  intro s v e ts rest hr hidle hfail hi
  obtain ⟨t, u, hrun, hexec, heng, hdone, herr, hcode, hops, -⟩ := resultIndependentOfLatency s v ts rest hr hidle hi
  have hcheck : check (decode v) (s.issue v) = some e := (check_congr rfl rfl rfl _).trans hfail
  rw [exec_eq_of_check_some hcheck] at hexec
  cases hexec
  exact ⟨t, hrun, hops, heng, hdone, herr, hcode⟩

end Sys2Proof.Machine
end

section
/-! PROOFS. The interrupt output: what sets it and which steps lower it (O8). -/

namespace Sys2Proof.Machine

theorem irq_eq_true_iff (s : State) : s.irq = true ↔ s.ie = true ∧ s.done = true := by
  simp [State.irq]

/-- R89: DONE is 1 after every completion, so the interrupt output is CTRL.IE, which no command changes. -/
theorem exec_irq {i : Instr} {s t : State} (h : exec i s = .next t) : t.irq = s.ie := by
  rw [exec_eq] at h
  cases h
  obtain ⟨-, -, hie, -⟩ := complete_sameRest i (check i s) s
  rw [State.irq, complete_done, hie, Bool.and_true]

/-- A write of CTRL sets IE, a write of STATUS may clear DONE, an issue clears it, and no other write touches them. -/
theorem writeReg_irq (s : State) (r : Reg) (v : Word) :
    (writeReg s r v).irq =
      match r with
      | .ctrl => v.getLsbD 0 && s.done
      | .status => s.irq && !v.getLsbD 1
      | .cmd => false
      | _ => s.irq := by
  cases r with
  | ctrl => rfl
  | status =>
    simp only [writeReg, State.writeStatus_eq, State.irq]
    cases v.getLsbD 1 <;> simp
  | cmd => exact Bool.and_false _
  | _ => rfl

/-- The host's writes that may lower the interrupt output: those that clear IE or DONE, and the issue (60_exceptions.md
R95). -/
def LowersIrq (off : Nat) (v : Word) : Prop :=
  (off = 0x008 ∧ v.getLsbD 0 = false) ∨ (off = 0x00C ∧ v.getLsbD 1 = true) ∨ off = 0x010

theorem lowersIrq_of_writeReg {s : State} {off : Nat} {r : Reg} {v : Word} (hreg : regAt off = some r)
    (hirq : s.irq = true) (hlow : (writeReg s r v).irq = false) : LowersIrq off v := by
  have hoff := regAt_eq_some.mp hreg
  obtain ⟨-, hdone⟩ := (irq_eq_true_iff s).mp hirq
  rw [writeReg_irq] at hlow
  cases r with
  | ctrl => exact .inl ⟨by simpa using hoff, by simpa [hdone] using hlow⟩
  | status => exact .inr (.inl ⟨by simpa using hoff, by simpa [hirq] using hlow⟩)
  | cmd => exact .inr (.inr (by simpa using hoff))
  | _ => exact absurd hlow (ne_false_of_eq_true hirq)

/-- A transaction that lowers the interrupt output is one of those writes. -/
theorem hostAccess_lowersIrq {s : State} {t : Transaction} (hirq : s.irq = true) (hlow : (hostAccess s t).irq = false) :
    ∃ off v, t = .write (s.cfg.base + off) .four v ∧ LowersIrq off v := by
  have hne : s.irq ≠ false := ne_false_of_eq_true hirq
  rcases hostAccess_cases s t with he | ⟨r, he⟩ | ⟨addr, size, v, off, tgt, ht, ho, hp, he⟩ <;> rw [he] at hlow
  · exact absurd hlow hne
  · exact absurd hlow hne
  · cases tgt with
    | reg r =>
      obtain ⟨rfl, hreg⟩ := permitted_reg hp
      obtain ⟨-, rfl⟩ := offsetOf_lt ho
      exact ⟨off, v, ht, lowersIrq_of_writeReg hreg hirq hlow⟩
    | bbuf i => exact absurd hlow hne
    | wbuf i => exact absurd hlow hne

/-- A step that lowers the interrupt output takes the assertion of `rst_n` or one of those writes. -/
theorem step_lowersIrq {s t : State} (h : step s = .next t) (hirq : s.irq = true) (hlow : t.irq = false) :
    (∃ rest, s.inbox = .assertReset :: rest) ∨
      ∃ off v rest, s.inbox = .host (.write (s.cfg.base + off) .four v) :: rest ∧ LowersIrq off v := by
  have hne : s.irq ≠ false := ne_false_of_eq_true hirq
  rcases step_cases s with ⟨_, _, _, he⟩ | ⟨_, _, he⟩ | ⟨e, rest, hi, _, he⟩ | ⟨_, _, _, _, he⟩ | ⟨rest, hi, _⟩ |
    ⟨_, _, he⟩
  · obtain ⟨hie, -⟩ := (irq_eq_true_iff s).mp hirq
    have hkept : t.irq = s.ie := exec_irq (s := s.takeEvent) (he.symm.trans h)
    exact absurd (hkept.symm.trans hlow) (ne_false_of_eq_true hie)
  · cases he.symm.trans h
    exact absurd hlow hne
  · cases he.symm.trans h
    obtain ⟨off, v, rfl, hwrite⟩ := hostAccess_lowersIrq (s := s.takeEvent) hirq hlow
    exact .inr ⟨off, v, rest, hi, hwrite⟩
  · cases he.symm.trans h
    exact absurd hlow hne
  · exact .inl ⟨rest, hi⟩
  · cases he.symm.trans h
    exact absurd hlow hne

/-- Settles O8: the writes by `writeReg_irq`, the lowering by what a step does. -/
theorem interruptLevel : Obligations.InterruptLevel := by
  intro s
  refine ⟨irq_eq_true_iff s, fun i t h => exec_irq h, fun rest v hr => ⟨fun hi => ?_, fun hi => ?_, fun hidle hi => ?_⟩,
    fun rest hi => ⟨_, step_assertReset hi, rfl⟩, fun t h hirq hlow => step_lowersIrq h hirq hlow⟩
  · exact ⟨_, step_write_register hr (r := .ctrl) rfl (.inr (by simp)) hi, writeReg_irq s .ctrl v⟩
  · exact ⟨_, step_write_register hr (r := .status) rfl (.inr (by simp)) hi, writeReg_irq s .status v⟩
  · exact ⟨_, step_write_register hr (r := .cmd) rfl (.inl hidle) hi, writeReg_irq s .cmd v⟩

end Sys2Proof.Machine
end

section
/-! PROOFS. Reset: the device held in it and the first transaction after it (O2, O3). -/

namespace Sys2Proof.Machine

/-- The device while `rst_n` is low: the reset values, and what is still to come from outside. -/
def State.held (cfg : Config) (draw : Nat) (inbox : List Event) : State :=
  { State.resetWith cfg draw with inReset := true, inbox := inbox }

/-- A held device takes transactions from the inbox and does nothing else (70_reset_and_hazards.md R103). -/
theorem run_transactions_held (cfg : Config) (draw : Nat) (ts : List Transaction) (rest : List Event) :
    Host.Core.run core ts.length (State.held cfg draw (ts.map .host ++ rest)) = .next (State.held cfg draw rest) := by
  induction ts with
  | nil => exact run_zero _
  | cons t ts ih =>
    have hstep : step (State.held cfg draw (.host t :: (ts.map .host ++ rest))) =
        .next (State.held cfg draw (ts.map .host ++ rest)) := step_host_held rfl rfl
    exact (run_succ hstep ts.length).trans ih

/-- The assertion of `rst_n` and the transactions after it, from any state (R103, R104). -/
theorem run_reset_transactions {s : State} (ts : List Transaction) {rest : List Event}
    (hi : s.inbox = .assertReset :: (ts.map .host ++ rest)) :
    Host.Core.run core (ts.length + 1) s = .next (State.held s.cfg (s.draw + 1) rest) :=
  (run_succ (step_assertReset hi) _).trans (run_transactions_held s.cfg (s.draw + 1) ts rest)

/-- Settles O2: `k` transactions after the assertion the device is held, and the release makes it the reset state. -/
theorem resetAbandonsEverything : Obligations.ResetAbandonsEverything := by
  intro s ts rest hi
  refine ⟨fun k hk => ?_, ?_⟩
  · have hsplit : s.inbox =
        .assertReset :: ((ts.take k).map .host ++ ((ts.drop k).map .host ++ .releaseReset :: rest)) := by
      rw [hi, ← List.append_assoc, ← List.map_append, List.take_append_drop]
    have hrun := run_reset_transactions (ts.take k) hsplit
    rw [List.length_take_of_le hk] at hrun
    exact ⟨_, hrun, rfl, rfl, rfl⟩
  · exact (run_add (run_reset_transactions ts hi) 1).trans (run_one (step_releaseReset rfl))

/-- Settles O3: ID and CAP are read as registers, and a legal transaction is permitted, as it names something. -/
theorem firstTransactionAfterReset : Obligations.FirstTransactionAfterReset := by
  intro cfg draw rest hcfg
  obtain ⟨_, hmax, _⟩ := hcfg
  have hcap : readReg (State.resetWith cfg draw) .cap = BitVec.ofNat 32 cfg.nmax := capValue_eq hmax
  refine ⟨step_read_register (off := 0x000) (r := .id) rfl rfl (.inl rfl) rfl, ?_, fun addr off size v ho hlegal => ?_⟩
  · rw [← hcap]
    exact step_read_register (r := .cap) rfl rfl (.inl rfl) rfl
  · obtain ⟨tgt, htgt⟩ := legal_target hlegal
    have hp : permitted (State.resetWith cfg draw) off size = some tgt :=
      (permitted_of_legal (s := State.resetWith cfg draw) hlegal).trans htgt
    exact ⟨⟨_, step_read_permitted rfl ho hp rfl, _, rfl⟩, _, step_write_permitted rfl ho hp rfl, rfl⟩

end Sys2Proof.Machine
end

section
/-! PROOFS. Every command in progress completes (O15). -/

namespace Sys2Proof.Machine

/-- One step of a busy device that no reset meets: the completion step at the engine's turn, and otherwise the next event
is taken and the command stays in progress (60_exceptions.md R89, 20_memory.md R52). -/
theorem step_busy {s : State} (hr : s.inReset = false) (hb : s.eng = .busy) (hreset : .assertReset ∉ s.inbox) :
    ∃ t : State, step s = .next t ∧ ((t.eng = .idle ∧ t.done = true) ∨
      (t.inReset = false ∧ t.eng = .busy ∧ ∃ e, s.inbox = e :: t.inbox)) := by
  have hbusy : ¬(s.inReset = true ∨ s.eng = .idle) := by simp [hr, hb]
  rcases step_cases s with ⟨_, _, _, he⟩ | ⟨_, hwait, _⟩ | ⟨e, rest, hi, _, he⟩ | ⟨_, _, _, hheld, _⟩ | ⟨rest, hi, _⟩ |
    ⟨rest, hi, he⟩
  · exact ⟨_, he.trans (exec_eq _ _), .inl ⟨complete_eng .., complete_done ..⟩⟩
  · exact absurd hwait hbusy
  · obtain ⟨ie, done, err, errcode, resp, haccess, -⟩ := hostAccess_busy (s := s.takeEvent) hb e
    exact ⟨_, he.trans (congrArg _ haccess), .inr ⟨hr, hb, .host e, by simp [hi]⟩⟩
  · exact absurd (.inl hheld) hbusy
  · exact absurd (by simp [hi]) hreset
  · exact ⟨_, he, .inr ⟨rfl, hb, .releaseReset, by simp [hi]⟩⟩

/-- Each step that does not complete the command leaves one event fewer, and with none left the turn is the engine's. -/
theorem run_completes {s : State} (hr : s.inReset = false) (hb : s.eng = .busy) (hreset : .assertReset ∉ s.inbox) :
    ∃ k, k ≤ s.inbox.length + 1 ∧
      ∃ t : State, Host.Core.run core k s = .next t ∧ t.eng = .idle ∧ t.done = true := by
  obtain ⟨t, hstep, hdone | ⟨htr, htb, e, hi⟩⟩ := step_busy hr hb hreset
  · exact ⟨1, by simp, t, run_one hstep, hdone⟩
  · rw [hi] at hreset ⊢
    obtain ⟨k, hk, u, hrun, hdone⟩ := run_completes htr htb (List.not_mem_of_not_mem_cons hreset)
    exact ⟨k + 1, Nat.succ_le_succ hk, u, (run_succ hstep k).trans hrun, hdone⟩
termination_by s.inbox.length
decreasing_by simp [hi]

/-- Settles O15, by recursion on the events to come. -/
theorem everyCommandCompletes : Obligations.EveryCommandCompletes := fun _ => run_completes

end Sys2Proof.Machine
end

section
/-! PROOFS. Which steps change KEY (O51). -/

namespace Sys2Proof.Machine

/-- A host write changes KEY at a key register only (10_state.md R25). -/
theorem writeTarget_key (s : State) (tgt : Target) (v : Word) :
    (writeTarget s tgt v).key = s.key ∨ ∃ i, tgt = .reg (.key i) := by
  cases tgt with
  | bbuf i => exact .inl rfl
  | wbuf i => exact .inl rfl
  | reg r =>
    cases r with
    | key i => exact .inr ⟨i, rfl⟩
    | status => exact .inl (by simp [writeTarget, writeReg, State.writeStatus_eq])
    | _ => exact .inl rfl

/-- The offsets of KEY0 to KEY3 (10_state.md R15). -/
theorem regAt_key {off : Nat} {i : BitVec 2} (h : regAt off = some (.key i)) :
    off = 0x020 ∨ off = 0x024 ∨ off = 0x028 ∨ off = 0x02C := by
  have hmem := regAt_eq_some.mp h
  simp only [List.mem_cons, List.not_mem_nil, or_false, Prod.mk.injEq, reduceCtorEq, and_false, false_or] at hmem
  omega

/-- A transaction that changes KEY is a 4-byte write of a key register, and the engine is idle (20_memory.md R44). -/
theorem hostAccess_key {s : State} {t : Transaction} (h : (hostAccess s t).key ≠ s.key) :
    s.eng = .idle ∧ ∃ off v i, t = .write (s.cfg.base + off) .four v ∧ regAt off = some (.key i) := by
  rcases hostAccess_cases s t with he | ⟨r, he⟩ | ⟨addr, size, v, off, tgt, ht, ho, hp, he⟩ <;> rw [he] at h
  · exact absurd rfl h
  · exact absurd rfl h
  · obtain ⟨i, rfl⟩ := (writeTarget_key s tgt v).resolve_left h
    obtain ⟨rfl, hreg⟩ := permitted_reg hp
    obtain ⟨-, rfl⟩ := offsetOf_lt ho
    have hidle : s.eng = .idle := by
      cases hb : s.eng with
      | idle => rfl
      | busy => exact absurd (permitted_busy hb hp) (by simp)
    exact ⟨hidle, off, v, i, ht, hreg⟩

/-- A completion step that changes KEY is that of the word of KEYLOAD (30_encoding.md R58, R60). -/
theorem exec_key {c : Word} {s t : State} (h : exec (decode c) s = .next t) (hkey : t.key ≠ s.key) :
    c = 0x00000003 := by
  obtain ⟨-, -, hkeep, -⟩ := commandsWriteOnlyTheirOperands (decode c) s t h
  exact (decode_eq_iff (i := .keyload) rfl).mp (not_imp_comm.mp hkeep hkey)

/-- Settles O51: by what a step does, the transaction's case by `hostAccess_key` and the completion's by `exec_key`. -/
theorem keyChangesOnlyByKeyloadHostReset : Obligations.KeyChangesOnlyByKeyloadHostReset := by
  intro s t h hkey
  rcases step_cases s with ⟨hi, hr, hb, he⟩ | ⟨_, _, he⟩ | ⟨e, rest, hi, hr, he⟩ | ⟨_, _, _, _, he⟩ | ⟨rest, hi, _⟩ |
    ⟨_, _, he⟩
  · exact .inr (.inr ⟨hr, hb, exec_key (he.symm.trans h) hkey, hi⟩)
  · cases he.symm.trans h
    exact absurd rfl hkey
  · cases he.symm.trans h
    obtain ⟨hidle, off, v, i, rfl, hreg⟩ := hostAccess_key (s := s.takeEvent) hkey
    exact .inr (.inl ⟨hr, hidle, _, v, rest, hi, by simpa using regAt_key hreg⟩)
  · cases he.symm.trans h
    exact absurd rfl hkey
  · exact .inl ⟨rest, hi⟩
  · cases he.symm.trans h
    exact absurd rfl hkey

end Sys2Proof.Machine
end
